-- ==== Sys2Proof/Word.lean ====
section
/-! DEFINITION. The widths the spec gives its values (00_scope.md R4, R7). Plain names for bit vectors, and the signed
reading of a 16-bit pattern; nothing here computes an instruction's result. -/

namespace Sys2Proof

/-- A byte of memory, of a stream or of the controller port. -/
abbrev Byte := BitVec 8

/-- A general register and a data word, `XLEN` = 16 bits (R4). -/
abbrev Word := BitVec 16

/-- An address inside the engine and the program counter, `AW` = 32 bits (R5, R15). -/
abbrev Addr := BitVec 32

/-- An instruction word, `ILEN` = 32 bits (R4, R70). -/
abbrev IWord := BitVec 32

/-- A register field; 5 bits name every register, so no index is out of range (R13, R71). -/
abbrev RegIdx := BitVec 5

/-- The shift-count field of an R-type word (R72, R76). -/
abbrev Shamt := BitVec 5

/-- The immediate field of an I-type word, unsigned as decoded (R71, R75). -/
abbrev Imm := BitVec 16

/-- An opcode or a function code, 6 bits (R71, R72). -/
abbrev Code := BitVec 6

/-- `signed16(v)`: the two's-complement reading of a 16-bit pattern (R7). -/
abbrev signed16 (v : Word) : Int := v.toInt

end Sys2Proof
end

