-- ==== Sys2Proof/Config.lean ====
section
/-! DEFINITION. The parameters of 00_scope.md R5 as one configuration record, the size of the video window of R4, and the values
left open. The values a later test could correct (the numbers of OPMAP, `BR_BASE`, the address map, the header offsets) are not here:
they are definitions of Decode.lean and of Machine/. -/

namespace Sys2Proof

/-- The parameter `OPMAP` (30_encoding.md R78): ten opcode numbers and ten function numbers of 6 bits each. -/
structure Opmap where
  opOri  : Code
  opAddi : Code
  opSb   : Code
  opLbu  : Code
  opLw   : Code
  opSw   : Code
  opBeq  : Code
  opBne  : Code
  opJ    : Code
  opJal  : Code
  fnNor  : Code
  fnOr   : Code
  fnSub  : Code
  fnAdd  : Code
  fnAnd  : Code
  fnSlt  : Code
  fnSll  : Code
  fnSrl  : Code
  fnSra  : Code
  fnJr   : Code
  deriving DecidableEq, Repr

/-- The ten opcode numbers of an OPMAP. -/
def Opmap.opcodes (m : Opmap) : List Code :=
  [m.opOri, m.opAddi, m.opSb, m.opLbu, m.opLw, m.opSw, m.opBeq, m.opBne, m.opJ, m.opJal]

/-- The ten function numbers of an OPMAP. -/
def Opmap.functions (m : Opmap) : List Code :=
  [m.fnNor, m.fnOr, m.fnSub, m.fnAdd, m.fnAnd, m.fnSlt, m.fnSll, m.fnSrl, m.fnSra, m.fnJr]

/-- R79: no opcode number is the R-type sentinel 28, the ten opcodes are pairwise different, and so are the ten
functions (that each is in 0 to 63 is its type). -/
def Opmap.wf (m : Opmap) : Bool :=
  !m.opcodes.contains 28#6 && decide m.opcodes.Nodup && decide m.functions.Nodup

/-- The parameter `AW`, the width of pc and of every address value inside the engine: 32, or 16 under the alternative reading of
decision D1 of the spec (log entry 11). -/
inductive AddrWidth where
  | bits16
  | bits32
  deriving DecidableEq, Repr

/-- `AW` as a number. -/
def AddrWidth.bits : AddrWidth → Nat
  | .bits16 => 16
  | .bits32 => 32

/-- The parameter `BR_BASE`, what a taken branch adds to pc besides four times the immediate: 0 or 4, the two readings of conflict C1
(decision D6 of the spec, log entry 10). -/
inductive BranchBase where
  | zero
  | four
  deriving DecidableEq, Repr

/-- `BR_BASE` as a number. -/
def BranchBase.offset : BranchBase → Nat
  | .zero => 0
  | .four => 4

/-- `VRAM_W` (R4). -/
def vramW : Nat := 128

/-- `VRAM_H` (R4). -/
def vramH : Nat := 120

/-- The bytes of the video window, one per pixel (R4, R57). -/
def vramSize : Nat := vramW * vramH

/-- The configuration record of R5: every parameter the source does not fix, but for `BUTTON_BIT`, which is outside the core (log entry
17). It is a field of the state that no transition changes (log entry 31), so that a claim over all states is a claim over all
parameters. -/
structure Config where
  /-- `AW`. -/
  addrWidth : AddrWidth
  /-- `OPMAP`. -/
  opmap     : Opmap
  /-- R79: the record accepts only a well-formed `OPMAP`, so every state of the machine has one. -/
  opmapWf   : opmap.wf = true
  /-- `BR_BASE`. -/
  brBase    : BranchBase
  /-- `REG_RESET`: registers 1 to 31 after reset. -/
  regReset  : Word
  /-- `MEM_RESET`: every storage byte after reset. -/
  memReset  : Byte
  /-- `STDIN_EOF`, an open parameter: a byte a claim names, or none, and then the opaque constant `openStdinEof`. -/
  stdinEof  : Option Byte
  /-- `VRAM_BASE`, an open parameter whose only law is that the window lies inside RAM (base + 15360 is at most 0x7000, so the base is
  one of 13313 values): an address a claim names, or none, and then the opaque constant `openVramBase`. -/
  vramBase  : Option (Fin 13313)
  deriving DecidableEq, Repr

/-- The value of `STDIN_EOF` where the record leaves it open (decision D16 of the spec, log entry 8): no value is known here. -/
opaque openStdinEof : Byte

/-- The value of `VRAM_BASE` where the record leaves it open (decision D26 of the spec, log entry 9): no value is known here. -/
opaque openVramBase : Fin 13313

end Sys2Proof
end

