-- ==== Sys2Proof/Syntax.lean ====
section
/-! DEFINITION. The 20 instructions of spec/opcode_table.json, one constructor per row in the table's order, every field of the
word carried by its constructor, ignored ones too (30_encoding.md R81: an ignored field may hold any value), so that an
instruction is exactly its word. Unknown encodings are no instructions (R80): Decode.lean names them. -/

namespace Sys2Proof

/-- I-type constructors carry `reg_a`, `reg_b`, `immediate` (R71); R-type ones `reg_a`, `reg_b`, `reg_c`, `shift` (R72). -/
inductive Instr where
  | j    (a b : RegIdx) (imm : Imm)                 -- R112; a, b ignored
  | jal  (a b : RegIdx) (imm : Imm)                 -- R113; a, b ignored
  | beq  (a b : RegIdx) (imm : Imm)                 -- R110
  | bne  (a b : RegIdx) (imm : Imm)                 -- R111
  | addi (a b : RegIdx) (imm : Imm)                 -- R121; b the destination
  | ori  (a b : RegIdx) (imm : Imm)                 -- R120; b the destination
  | lw   (a b : RegIdx) (imm : Imm)                 -- R128; a the base, b the destination
  | lbu  (a b : RegIdx) (imm : Imm)                 -- R127; a the base, b the destination
  | sb   (a b : RegIdx) (imm : Imm)                 -- R126; a the base, b the data
  | sw   (a b : RegIdx) (imm : Imm)                 -- R129; a the base, b the data
  | sll  (a b c : RegIdx) (sh : Shamt)              -- R145; a ignored, c the destination
  | srl  (a b c : RegIdx) (sh : Shamt)              -- R146; a ignored, c the destination
  | sra  (a b c : RegIdx) (sh : Shamt)              -- R147; a ignored, c the destination
  | jr   (a b c : RegIdx) (sh : Shamt)              -- R114; b, c, sh ignored
  | add  (a b c : RegIdx) (sh : Shamt)              -- R138; sh ignored, c the destination
  | sub  (a b c : RegIdx) (sh : Shamt)              -- R137; sh ignored, c the destination
  | and  (a b c : RegIdx) (sh : Shamt)              -- R139; sh ignored, c the destination
  | or   (a b c : RegIdx) (sh : Shamt)              -- R136; sh ignored, c the destination
  | nor  (a b c : RegIdx) (sh : Shamt)              -- R135; sh ignored, c the destination
  | slt  (a b c : RegIdx) (sh : Shamt)              -- R140; sh ignored, c the destination
  deriving DecidableEq, Repr

/-- The two fixed layouts of an instruction word (R70). -/
inductive Format where
  | iType
  | rType
  deriving DecidableEq, Repr

/-- The layout of each instruction: ten I-type, ten R-type, JR among the latter (R77; decision D3 of the spec). -/
def Instr.format : Instr → Format
  | .j .. | .jal .. | .beq .. | .bne .. | .addi .. | .ori .. | .lw .. | .lbu .. | .sb .. | .sw .. => .iType
  | .sll .. | .srl .. | .sra .. | .jr .. | .add .. | .sub .. | .and .. | .or .. | .nor .. | .slt .. => .rType

end Sys2Proof
end

