-- ==== Sys2Proof/WellFormed.lean ====
section
/-! DEFINITION. The checks on static terms. A term of `Instr` has no ill-formed field: each is a bit vector of exactly its width
(30_encoding.md R71, R72), so `Instr.wellFormed` asks only what the spec's own notation asks (ignored fields zero, R84)
where a claim wants an instruction as an assembler writes it. The check that decoding needs is that of OPMAP (R79): `Opmap.wf`,
which stands beside the parameter in Config.lean, because the configuration record takes no map that fails it. -/

namespace Sys2Proof

/-- The fields an instruction ignores are zero: what the notation of R84 writes. Words that fail it run all the same (R81);
they are the guard G4 of 93_implementation_defined.md. -/
def Instr.wellFormed : Instr → Bool
  | .j a b _ | .jal a b _ => a == 0#5 && b == 0#5
  | .beq .. | .bne .. | .addi .. | .ori .. | .lw .. | .lbu .. | .sb .. | .sw .. => true
  | .sll a _ _ _ | .srl a _ _ _ | .sra a _ _ _ => a == 0#5
  | .jr _ b c sh => b == 0#5 && c == 0#5 && sh == 0#5
  | .add _ _ _ sh | .sub _ _ _ sh | .and _ _ _ sh | .or _ _ _ sh | .nor _ _ _ sh | .slt _ _ _ sh => sh == 0#5

end Sys2Proof
end

