-- ==== Sys2Proof/Decode.lean ====
section
/-! DEFINITION. The instruction decoder (30_encoding.md): the selector, field extraction, the opcode map and its selection, and
the encoder that inverts them. Decoding is total on all 32-bit words (R73); a word that selects no instruction is named as an
unknown opcode or an unknown function (R80), never lost. -/

namespace Sys2Proof

/-! ### Slices (R71, R72) -/

/-- `word[31:26]`. -/
def opcodeField (w : IWord) : Code := w.extractLsb' 26 6
/-- `word[25:21]`, the same in both formats. -/
def regAField (w : IWord) : RegIdx := w.extractLsb' 21 5
/-- `word[20:16]`, the same in both formats. -/
def regBField (w : IWord) : RegIdx := w.extractLsb' 16 5
/-- `word[15:0]` of an I-type word. -/
def immField (w : IWord) : Imm := w.extractLsb' 0 16
/-- `word[15:11]` of an R-type word. -/
def regCField (w : IWord) : RegIdx := w.extractLsb' 11 5
/-- `word[10:6]` of an R-type word. -/
def shiftField (w : IWord) : Shamt := w.extractLsb' 6 5
/-- `word[5:0]` of an R-type word. -/
def functionField (w : IWord) : Code := w.extractLsb' 0 6

/-- `R_SENTINEL`, the one number the source gives (R4, R72). -/
def rSentinel : Code := 28#6

/-- The selector (R73). -/
def classify (w : IWord) : Format :=
  if opcodeField w = rSentinel then .rType else .iType

/-- The decoded instruction variant of R74, a tagged union over the two formats. -/
inductive Fields where
  | iType (opcode : Code) (a b : RegIdx) (imm : Imm)
  | rType (a b c : RegIdx) (shift : Shamt) (function : Code)
  deriving DecidableEq, Repr

/-- `decode(word)` of R74: classify, then extract the fields of that format. -/
def fieldsOf (w : IWord) : Fields :=
  match classify w with
  | .rType => .rType (regAField w) (regBField w) (regCField w) (shiftField w) (functionField w)
  | .iType => .iType (opcodeField w) (regAField w) (regBField w) (immField w)

/-! ### The opcode map -/

/-- PRESUMED (log entry 1). The default numbers of R78, which the spec takes from general knowledge (the MIPS I numbers of the
same mnemonics; decision D2 of the spec) and does not claim of the hardware. -/
def opmap : Opmap where
  opOri  := 13#6
  opAddi := 8#6
  opSb   := 40#6
  opLbu  := 36#6
  opLw   := 35#6
  opSw   := 43#6
  opBeq  := 4#6
  opBne  := 5#6
  opJ    := 2#6
  opJal  := 3#6
  fnNor  := 39#6
  fnOr   := 37#6
  fnSub  := 34#6
  fnAdd  := 32#6
  fnAnd  := 36#6
  fnSlt  := 42#6
  fnSll  := 0#6
  fnSrl  := 2#6
  fnSra  := 3#6
  fnJr   := 8#6

/-- What a word stands for: one of the 20 instructions, or an unknown encoding by name (R80). -/
inductive Decoded where
  | instr (i : Instr)
  | unknownOpcode (opcode : Code)
  | unknownFunction (function : Code)
  deriving DecidableEq, Repr

/-- The dispatch of I-type words by opcode, in the order of R91. -/
def selectOpcode (m : Opmap) (op : Code) (a b : RegIdx) (imm : Imm) : Decoded :=
  if op = m.opOri then .instr (.ori a b imm)
  else if op = m.opAddi then .instr (.addi a b imm)
  else if op = m.opSb then .instr (.sb a b imm)
  else if op = m.opLbu then .instr (.lbu a b imm)
  else if op = m.opLw then .instr (.lw a b imm)
  else if op = m.opSw then .instr (.sw a b imm)
  else if op = m.opBeq then .instr (.beq a b imm)
  else if op = m.opBne then .instr (.bne a b imm)
  else if op = m.opJ then .instr (.j a b imm)
  else if op = m.opJal then .instr (.jal a b imm)
  else .unknownOpcode op

/-- The dispatch of R-type words by function code, in the order of R91. The sentinel check of the source cannot fail here
(R83): these fields come from a word whose opcode field is 28. -/
def selectFunction (m : Opmap) (a b c : RegIdx) (sh : Shamt) (fn : Code) : Decoded :=
  if fn = m.fnNor then .instr (.nor a b c sh)
  else if fn = m.fnOr then .instr (.or a b c sh)
  else if fn = m.fnSub then .instr (.sub a b c sh)
  else if fn = m.fnAdd then .instr (.add a b c sh)
  else if fn = m.fnAnd then .instr (.and a b c sh)
  else if fn = m.fnSlt then .instr (.slt a b c sh)
  else if fn = m.fnSll then .instr (.sll a b c sh)
  else if fn = m.fnSrl then .instr (.srl a b c sh)
  else if fn = m.fnSra then .instr (.sra a b c sh)
  else if fn = m.fnJr then .instr (.jr a b c sh)
  else .unknownFunction fn

/-- The router of R92: a pure function of the fields and of OPMAP. -/
def select (m : Opmap) : Fields → Decoded
  | .iType op a b imm => selectOpcode m op a b imm
  | .rType a b c sh fn => selectFunction m a b c sh fn

/-- The decoder under any OPMAP. -/
def decodeWith (m : Opmap) (w : IWord) : Decoded := select m (fieldsOf w)

/-- The decoder of this machine. -/
def decode (w : IWord) : Decoded := decodeWith opmap w

/-! ### Byte order of an instruction word (20_memory.md R49) -/

/-- The 32-bit value of four bytes, the byte at the lowest address the most significant. -/
def wordOfBytes (b0 b1 b2 b3 : Byte) : IWord := b0 ++ b1 ++ b2 ++ b3

/-- The four bytes of a 32-bit value, lowest address first. -/
def bytesOfWord (w : IWord) : List Byte :=
  [w.extractLsb' 24 8, w.extractLsb' 16 8, w.extractLsb' 8 8, w.extractLsb' 0 8]

/-- Decoding of any list of bytes: the first four are an instruction's word and the rest is left; fewer than four are none (every
instruction is four bytes, R70). -/
def decodeBytes : List Byte → Option (Decoded × List Byte)
  | b0 :: b1 :: b2 :: b3 :: rest => some (decode (wordOfBytes b0 b1 b2 b3), rest)
  | _ => none

/-! ### The encoder -/

/-- `enc_I` of R74. -/
def encI (op : Code) (a b : RegIdx) (imm : Imm) : IWord := op ++ a ++ b ++ imm

/-- `enc_R` of R74. -/
def encR (a b c : RegIdx) (sh : Shamt) (fn : Code) : IWord := rSentinel ++ a ++ b ++ c ++ sh ++ fn

/-- The word of an instruction under any OPMAP, every field in its place. -/
def encodeWith (m : Opmap) : Instr → IWord
  | .j a b imm      => encI m.opJ a b imm
  | .jal a b imm    => encI m.opJal a b imm
  | .beq a b imm    => encI m.opBeq a b imm
  | .bne a b imm    => encI m.opBne a b imm
  | .addi a b imm   => encI m.opAddi a b imm
  | .ori a b imm    => encI m.opOri a b imm
  | .lw a b imm     => encI m.opLw a b imm
  | .lbu a b imm    => encI m.opLbu a b imm
  | .sb a b imm     => encI m.opSb a b imm
  | .sw a b imm     => encI m.opSw a b imm
  | .sll a b c sh   => encR a b c sh m.fnSll
  | .srl a b c sh   => encR a b c sh m.fnSrl
  | .sra a b c sh   => encR a b c sh m.fnSra
  | .jr a b c sh    => encR a b c sh m.fnJr
  | .add a b c sh   => encR a b c sh m.fnAdd
  | .sub a b c sh   => encR a b c sh m.fnSub
  | .and a b c sh   => encR a b c sh m.fnAnd
  | .or a b c sh    => encR a b c sh m.fnOr
  | .nor a b c sh   => encR a b c sh m.fnNor
  | .slt a b c sh   => encR a b c sh m.fnSlt

/-- The word of an instruction of this machine. -/
def encode (i : Instr) : IWord := encodeWith opmap i

/-! ### The host's question -/

/-- The instruction the decoder reads from a table row's bits: the word is laid out as memory stores it (most significant byte
first) and given to the decoder; an unknown encoding is none. -/
def decodeTableWord (nbits w : Nat) : Option Instr :=
  match decodeBytes (bytesOfWord (BitVec.ofNat 32 (w % 2 ^ nbits))) with
  | some (.instr i, _) => some i
  | _ => none

end Sys2Proof
end

