-- ==== Sys2Proof/Machine/Defaults.lean ====
section
/-! DEFINITION. The value each parameter of 00_scope.md R5 has in the spec, one definition each. -/

namespace Sys2Proof.Machine

/-- `AW` (decision D1 of the spec, log entry 11). -/
def defaultAddrWidth : AddrWidth := .bits32

/-- `BR_BASE` (conflict C1 of 90_conflicts.md, decision D6 of the spec, log entry 10). -/
def defaultBrBase : BranchBase := .zero

/-- `REG_RESET` (R29; decision D14 of the spec, log entry 3). -/
def defaultRegReset : Word := 0#16

/-- `MEM_RESET` (R29; decision D14 of the spec, log entry 4). -/
def defaultMemReset : Byte := 0#8

/-- The record of the spec's own values: the default OPMAP, and the two open parameters left open. -/
def defaultConfig : Config where
  addrWidth := defaultAddrWidth
  opmap     := Sys2Proof.opmap
  opmapWf   := by decide
  brBase    := defaultBrBase
  regReset  := defaultRegReset
  memReset  := defaultMemReset
  stdinEof  := none
  vramBase  := none

/-- DESIGN CHOICE (log entry 5). The value of the two entry latches before the mount, which R29 calls unspecified. -/
def latchReset : Addr := 0#32

end Sys2Proof.Machine
end

