-- ==== Sys2Proof/Machine/Memory.lean ====
section
/-! DEFINITION. The storage behind the address space (10_state.md R24): reading and writing one byte, replacing a block, and the
canonical form. No permission is checked here: the checked accesses are in Ops.lean, the direct ones (mount, restore, the video
window) in Session.lean and Engine.lean. -/

namespace Sys2Proof.Machine

/-- The storage behind the 65536 addresses (R24), as a list of (address, byte) cells in one canonical form, `Memory.wf`. -/
abbrev Memory := List Host.Cell

/-- What an address without a cell reads as: the reset contents of the default parameters (R29; log entry 4). Other reset contents are
cells like any other: see `Memory.filled`. -/
def Memory.unlisted : Byte := 0#8

/-- `MEM_SIZE` (00_scope.md R4). -/
def memSize : Nat := 65536

/-- The byte stored at an address; see `Memory.unlisted` for an address with no cell. -/
def Memory.read : Memory → Nat → Byte
  | [], _ => Memory.unlisted
  | (k, b) :: rest, a => if k = a then b else Memory.read rest a

/-- A cell, left out where it would hold what an unlisted address reads as. -/
def Memory.cell (a : Nat) (v : Byte) : Memory :=
  if v = Memory.unlisted then [] else [(a, v)]

/-- `mem[a] <- v`, keeping the canonical form. -/
def Memory.write : Memory → Nat → Byte → Memory
  | [], a, v => Memory.cell a v
  | (k, b) :: rest, a, v =>
    if a < k then Memory.cell a v ++ (k, b) :: rest
    else if a = k then Memory.cell a v ++ rest
    else (k, b) :: Memory.write rest a v

/-- The cells of a block of bytes that begins at an address. -/
def Memory.ofBytes (base : Nat) : List Byte → Memory
  | [] => []
  | b :: bs => Memory.cell base b ++ Memory.ofBytes (base + 1) bs

/-- `mem[base + i] <- bytes[i]` for every byte of a block: the cells below the block, the block, the cells above it. -/
def Memory.writeBlock (m : Memory) (base : Nat) (bytes : List Byte) : Memory :=
  m.filter (fun c => c.1 < base) ++ Memory.ofBytes base bytes ++ m.filter (fun c => base + bytes.length ≤ c.1)

/-- Storage that holds one value at all 65536 addresses. -/
def Memory.filled (v : Byte) : Memory :=
  if v = Memory.unlisted then [] else Memory.ofBytes 0 (List.replicate memSize v)

/-- The bytes of a window of storage. -/
def Memory.window (m : Memory) (base size : Nat) : List Byte :=
  (List.range size).map fun i => m.read (base + i)

/-- The cells from an address bound on are in canonical form: addresses rise strictly and lie in the address space, and no cell
holds what an unlisted address reads as. -/
def Memory.wfFrom (low : Nat) : Memory → Bool
  | [] => true
  | (k, b) :: rest => decide (low ≤ k) && decide (k < memSize) && decide (b ≠ Memory.unlisted) && Memory.wfFrom (k + 1) rest

/-- The canonical form of a memory: equal memories are equal lists. -/
def Memory.wf (m : Memory) : Bool := Memory.wfFrom 0 m

end Sys2Proof.Machine
end

