-- ==== Sys2Proof/Machine/State.lean ====
section
/-! DEFINITION. All the state of the machine as plain data (10_state.md R10), its value after reset (R29), and the reasons a
transition can stop. Two fields are the model's own: `stage` (log entry 7) and `config` (log entry 31). -/

namespace Sys2Proof.Machine

/-- The two phases of the engine (R21). -/
inductive Phase where
  | setup
  | loop
  deriving DecidableEq, Repr

/-- Where the session and the engine's sequencer stand (log entry 7): the three stages of 70_reset_and_hazards.md R170, and within the
third whether a phase is being run (the while loop of 40_engine_step.md R100, R102 step 4) or the Loop phase stands before step 1
of an iteration. -/
inductive Stage where
  /-- After reset, before the mount. -/
  | constructed
  /-- After the mount, before the start. -/
  | mounted
  /-- A phase is being run: `while pc ≠ 0 and halted = 0: step()`. -/
  | running
  /-- In Loop, before step 1 of the next iteration. -/
  | betweenIterations
  deriving DecidableEq, Repr

/-- The permissions of a region, and the kind of an access (20_memory.md R32, R35). -/
inductive Permission where
  | read
  | write
  | execute
  deriving DecidableEq, Repr

/-- The widths of an access: 1, 2 and 4 bytes (20_memory.md R30, R53). -/
inductive Width where
  | byte
  | word
  | instruction
  deriving DecidableEq, Repr

/-- The diagnostic events of 60_exceptions.md R152. `rTypeSentinelMismatch` is in the spec's list and is never raised (R83 of
30_encoding.md). -/
inductive Diag where
  | permissionViolation (addr : Addr) (kind : Permission) (width : Width)
  | unknownOpcode (opcode : Code) (pc : Addr) (word : IWord)
  | unknownFunction (function : Code) (pc : Addr) (word : IWord)
  | rTypeSentinelMismatch (opcode : Code) (pc : Addr) (word : IWord)
  deriving DecidableEq, Repr

/-- A render event: the bytes of the video window at that moment (R27; 40_engine_step.md R102). -/
structure Render where
  pixels : List Byte
  deriving DecidableEq, Repr

/-- The state of the core, item by item the tuple of R10, and `stage` and `config`. -/
structure State where
  /-- The register file; cell 0 is never read and never written (R11, R12): see `State.reg`. -/
  regs       : Vector Word 32
  /-- The address of the next instruction (R15). -/
  pc         : Addr
  /-- The storage bytes (R24). -/
  mem        : Memory
  /-- R21. -/
  phase      : Phase
  /-- R22. -/
  halted     : Bool
  /-- The latch `setup_entry` (R23). -/
  setupEntry : Addr
  /-- The latch `loop_entry` (R23). -/
  loopEntry  : Addr
  /-- The controller bitmask (R25). -/
  ctrl       : Byte
  /-- The input bytes the host has supplied so far (R26). -/
  stdin      : List Byte
  /-- The read position in `stdin` (R26). -/
  stdinPos   : Nat
  /-- R26. -/
  stdout     : List Byte
  /-- R26. -/
  stderr     : List Byte
  /-- R27. -/
  diaglog    : List Diag
  /-- R27. -/
  frames     : List Render
  /-- The model's own field (log entry 7). -/
  stage      : Stage
  /-- The parameters of R5, which no transition changes (log entry 31). -/
  config     : Config
  deriving DecidableEq, Repr

/-- The state after reset and before the mount (R29) under any parameters: `x[0]` is 0 whatever `REG_RESET` is (R11). -/
def State.resetWith (c : Config) : State where
  regs       := (Vector.replicate 32 c.regReset).set 0 0#16
  pc         := 0#32
  mem        := Memory.filled c.memReset
  phase      := .setup
  halted     := false
  setupEntry := latchReset
  loopEntry  := latchReset
  ctrl       := 0#8
  stdin      := []
  stdinPos   := 0
  stdout     := []
  stderr     := []
  diaglog    := []
  frames     := []
  stage      := .constructed
  config     := c

/-- The state after reset under the spec's own parameters. -/
def State.reset : State := State.resetWith defaultConfig

/-- No reason: nothing on this machine faults. The engine never aborts (40_engine_step.md R96, R99), every anomaly degrades to a
diagnostic (60_exceptions.md R150), so the type has no constructor and no outcome of the model is a fault. -/
inductive Fault where
  deriving DecidableEq, Repr

/-- Why the model gives no next state. No instruction is refused; all but the first are refusals of an action of the host that breaks
one of the host's duties. -/
inductive Refusal where
  /-- An arm of `exec` for an instruction that has no meaning yet; raised by none now. Safe. -/
  | notModelled (mnemonic : String)
  /-- `mountRom` of an image that is not 32768 bytes (70_reset_and_hazards.md R171). Safe: the session must not start. -/
  | romImageSize
  /-- `mountRom` of an image whose relocation block leaves the image or the RAM (R176: a model refuses to start). Safe. -/
  | relocationOutOfBounds
  /-- `start` before a mount or a second time (R170, R188: after the mount, once). Safe. -/
  | startOutOfOrder
  /-- `restore` of a blob that is not 65604 bytes (R186). Safe. -/
  | snapshotGeometry
  deriving DecidableEq, Repr

/-- What a transition of this machine answers. -/
abbrev Result := Host.Outcome State Fault Refusal

end Sys2Proof.Machine
end

