-- ==== Sys2Proof/Machine/Ops.lean ====
section
/-! DEFINITION. The named operations on the state: the register file (10_state.md), the address map and the five accesses of the
memory controller (20_memory.md), and what stands in the place of an exception on this machine: reporting a diagnostic and going
on (60_exceptions.md R150, R152, R157: no trap entry and no trap return exist), and the halt (R155). -/

namespace Sys2Proof.Machine

/-! ### Registers and program counter -/

/-- `x[i]` (R11): `x[0]` reads 0 whatever its cell holds. -/
def State.reg (s : State) (i : RegIdx) : Word :=
  if i = 0#5 then 0#16 else s.regs[i.toNat]'i.isLt

/-- `x[i] <- v` (R12): a write to `x[0]` is discarded. -/
def State.setReg (s : State) (i : RegIdx) (v : Word) : State :=
  { s with regs := if i = 0#5 then s.regs else s.regs.set i.toNat v i.isLt }

/-- An address value reduced modulo 2^`AW` (R5, R16); under the default `AW`, 32, nothing is reduced that is not already. -/
def narrow (w : AddrWidth) (a : Addr) : Addr := BitVec.ofNat 32 (a.toNat % 2 ^ w.bits)

/-- `pc <- t` (R16), the one PC update of an instruction. -/
def State.setPc (s : State) (t : Addr) : State := { s with pc := narrow s.config.addrWidth t }

/-- The default PC rule, `pc <- pc + 4` modulo 2^`AW` (40_engine_step.md R95). -/
def State.advancePc (s : State) : State := s.setPc (s.pc + 4#32)

/-! ### Diagnostics and the halt -/

/-- `diag K(info)` (60_exceptions.md R152): one event is appended and nothing else changes. -/
def State.report (s : State) (d : Diag) : State := { s with diaglog := s.diaglog ++ [d] }

/-- The diagnostic of a degraded access (20_memory.md R36), with the address as given. -/
def State.violation (s : State) (a : Addr) (kind : Permission) (width : Width) : State :=
  s.report (.permissionViolation a kind width)

/-- `halted <- 1` (R22; 60_exceptions.md R155). -/
def State.halt (s : State) : State := { s with halted := true }

/-! ### The address map (20_memory.md R32 to R36) -/

/-- The regions of the map. -/
inductive Region where
  | ram
  | ctrl
  | stdin
  | stdout
  | stderr
  | stop
  | rom
  | none
  deriving DecidableEq, Repr

/-- `region(a)` of R34. -/
def region (a : Addr) : Region :=
  if a.toNat < 0x7000 then .ram
  else if a.toNat = 0x7000 then .ctrl
  else if a.toNat = 0x7100 then .stdin
  else if a.toNat = 0x7110 then .stdout
  else if a.toNat = 0x7120 then .stderr
  else if a.toNat = 0x7200 then .stop
  else if 0x8000 ≤ a.toNat ∧ a.toNat ≤ 0xFFFF then .rom
  else .none

/-- The permission sets of R32. -/
def Region.permissions : Region → List Permission
  | .ram    => [.read, .write]
  | .ctrl   => [.read]
  | .stdin  => [.read]
  | .stdout => [.write]
  | .stderr => [.write]
  | .stop   => [.write]
  | .rom    => [.read, .execute]
  | .none   => []

/-- Plain storage, the regions on which 2-byte and 4-byte accesses are defined (R46 to R48, R52). -/
def Region.isStorage : Region → Bool
  | .ram | .rom => true
  | .ctrl | .stdin | .stdout | .stderr | .stop | .none => false

/-- The check of R35 with R52: the region has the permission, and an access wider than a byte is to plain storage. -/
def granted (a : Addr) (kind : Permission) (width : Width) : Bool :=
  (region a).permissions.contains kind && (width == .byte || (region a).isStorage)

/-! ### The ports (20_memory.md R38 to R42) -/

/-- `STDIN_EOF` as the parameters give it or leave it open (R5). -/
def State.stdinEof (s : State) : Byte := s.config.stdinEof.getD openStdinEof

/-- A byte read of the input port (R39): the next unread byte, consumed; `STDIN_EOF` and no move when none is left. -/
def State.takeStdin (s : State) : Byte × State :=
  match s.stdin[s.stdinPos]? with
  | some b => (b, { s with stdinPos := s.stdinPos + 1 })
  | none => (s.stdinEof, s)

/-- `emit stdout(b)` (R41). -/
def State.emitStdout (s : State) (b : Byte) : State := { s with stdout := s.stdout ++ [b] }

/-- `emit stderr(b)` (R41). -/
def State.emitStderr (s : State) (b : Byte) : State := { s with stderr := s.stderr ++ [b] }

/-- `mem[a] <- b` on plain storage (R37). -/
def State.storeByte (s : State) (a : Nat) (b : Byte) : State := { s with mem := s.mem.write a b }

/-! ### The five accesses (20_memory.md R44 to R48) -/

/-- The address rounded down to a unit of `n` bytes (R51). -/
def alignDown (a : Addr) (n : Nat) : Nat := a.toNat - a.toNat % n

/-- `read_byte(a)` (R44). -/
def readByte (a : Addr) (s : State) : Byte × State :=
  match region a with
  | .ram | .rom => (s.mem.read a.toNat, s)
  | .ctrl => (s.ctrl, s)
  | .stdin => s.takeStdin
  | .stdout | .stderr | .stop | .none => (0#8, s.violation a .read .byte)

/-- `write_byte(a, v)` (R45): the state after it, and `halt_req`, a wire of the step that only the stop port raises (10_state.md R10). -/
def writeByte (a : Addr) (v : Byte) (s : State) : State × Bool :=
  match region a with
  | .ram => (s.storeByte a.toNat v, false)
  | .stdout => (s.emitStdout v, false)
  | .stderr => (s.emitStderr v, false)
  | .stop => (s, true)
  | .ctrl | .stdin | .rom | .none => (s.violation a .write .byte, false)

/-- `read_word(a)` (R46), big-endian, rounded down to even. -/
def readWord (a : Addr) (s : State) : Word × State :=
  match region a with
  | .ram | .rom => (s.mem.read (alignDown a 2) ++ s.mem.read (alignDown a 2 + 1), s)
  | .ctrl | .stdin | .stdout | .stderr | .stop | .none => (0#16, s.violation a .read .word)

/-- `write_word(a, v)` (R47), big-endian, rounded down to even. -/
def writeWord (a : Addr) (v : Word) (s : State) : State :=
  match region a with
  | .ram => (s.storeByte (alignDown a 2) (v.extractLsb' 8 8)).storeByte (alignDown a 2 + 1) (v.extractLsb' 0 8)
  | .ctrl | .stdin | .stdout | .stderr | .stop | .rom | .none => s.violation a .write .word

/-- `read_instruction(a)` (R48), big-endian, rounded down to a multiple of 4. -/
def readInstruction (a : Addr) (s : State) : IWord × State :=
  match region a with
  | .rom =>
    (wordOfBytes (s.mem.read (alignDown a 4)) (s.mem.read (alignDown a 4 + 1))
      (s.mem.read (alignDown a 4 + 2)) (s.mem.read (alignDown a 4 + 3)), s)
  | .ram | .ctrl | .stdin | .stdout | .stderr | .stop | .none => (0#32, s.violation a .execute .instruction)

/-! ### How an instruction ends -/

/-- The end of an instruction that writes a register: the write, then the default PC rule (40_engine_step.md R90, R95). -/
def State.writeBack (s : State) (i : RegIdx) (v : Word) : State := (s.setReg i v).advancePc

end Sys2Proof.Machine
end

