-- ==== Sys2Proof/Machine/Operands.lean ====
section
/-! DEFINITION. The operand forms (30_encoding.md R75, R76): the one addressing mode and the three ways a control transfer forms its
target. Every immediate is unsigned. -/

namespace Sys2Proof.Machine

/-- The sum of a base register and an immediate, both unsigned: 0 to 0x1FFFE (43_load_store.md R125). -/
def addressSum (s : State) (base : RegIdx) (imm : Imm) : Addr :=
  (s.reg base).setWidth 32 + imm.setWidth 32

/-- The effective address of LBU, LW, SB, SW (R125; decision D1, log entry 11): under the default `AW` the sum keeps its carry. -/
def effectiveAddress (s : State) (base : RegIdx) (imm : Imm) : Addr :=
  narrow s.config.addrWidth (addressSum s base imm)

/-- The target of a taken BEQ or BNE (41_control_transfer.md R110, R111; `BR_BASE` by decision D6, log entry 10). -/
def branchTarget (s : State) (imm : Imm) : Addr :=
  s.pc + BitVec.ofNat 32 s.config.brBase.offset + imm.setWidth 32 * 4#32

/-- The absolute target of J and JAL (R112, R113). -/
def jumpTarget (imm : Imm) : Addr := imm.setWidth 32 * 4#32

/-- The return address of JAL, cut to a register's width (R113; decision D11, log entry 12). -/
def linkValue (pc : Addr) : Word := (pc + 4#32).setWidth 16

/-- `LINK` (00_scope.md R4). -/
def linkReg : RegIdx := 31#5

/-- The target of JR: the register value widened with zeros (R114). -/
def registerTarget (s : State) (a : RegIdx) : Addr := (s.reg a).setWidth 32

/-- The shared shape of BEQ and BNE: one PC update either way (R110, R111). -/
def branchIf (cond : Bool) (imm : Imm) (s : State) : State :=
  if cond then s.setPc (branchTarget s imm) else s.advancePc

end Sys2Proof.Machine
end

