-- ==== Sys2Proof/Machine/AluImmediate.lean ====
section
/-! DEFINITION. Immediate arithmetic and logic (42_alu_immediate.md): ADDI, ORI. -/

namespace Sys2Proof.Machine

/-- The shared shape: `x[reg_b] <- f x[reg_a] imm`, then the default PC rule. -/
def aluImmediate (f : Word → Word → Word) (a b : RegIdx) (imm : Imm) (s : State) : State :=
  s.writeBack b (f (s.reg a) imm)

/-- R121: the sum modulo 2^16. -/
def execAddi (a b : RegIdx) (imm : Imm) (s : State) : Result :=
  .next (aluImmediate (fun x y => x + y) a b imm s)

/-- R120. -/
def execOri (a b : RegIdx) (imm : Imm) (s : State) : Result :=
  .next (aluImmediate (fun x y => x ||| y) a b imm s)

end Sys2Proof.Machine
end

