-- ==== Sys2Proof/Machine/Flags.lean ====
section
/-! DEFINITION. The machine has no flags (10_state.md R19): no instruction sets or reads one. What other machines answer with flags
this one answers with the two comparisons below, used by BEQ, BNE and SLT. -/

namespace Sys2Proof.Machine

/-- The condition of BEQ, and negated of BNE: equality of two bit patterns (41_control_transfer.md R110; 44_alu_register.md R141). -/
def equalCond (x y : Word) : Bool := x == y

/-- The value SLT writes: an exact signed comparison, not a wrapping subtraction (44_alu_register.md R140). -/
def signedLess (x y : Word) : Word := if signed16 x < signed16 y then 1#16 else 0#16

end Sys2Proof.Machine
end

