-- ==== Sys2Proof/Machine/AluRegister.lean ====
section
/-! DEFINITION. Register arithmetic and logic (44_alu_register.md): ADD, SUB, AND, OR, NOR, SLT. All ignore `shift`. -/

namespace Sys2Proof.Machine

/-- The shared shape: `x[reg_c] <- f x[reg_a] x[reg_b]`, then the default PC rule. -/
def aluRegister (f : Word → Word → Word) (a b c : RegIdx) (s : State) : State :=
  s.writeBack c (f (s.reg a) (s.reg b))

/-- R138: the sum modulo 2^16. -/
def execAdd (a b c : RegIdx) (_sh : Shamt) (s : State) : Result := .next (aluRegister (fun x y => x + y) a b c s)

/-- R137: `x[reg_a]` minus `x[reg_b]` modulo 2^16. -/
def execSub (a b c : RegIdx) (_sh : Shamt) (s : State) : Result := .next (aluRegister (fun x y => x - y) a b c s)

/-- R139. -/
def execAnd (a b c : RegIdx) (_sh : Shamt) (s : State) : Result := .next (aluRegister (fun x y => x &&& y) a b c s)

/-- R136. -/
def execOr (a b c : RegIdx) (_sh : Shamt) (s : State) : Result := .next (aluRegister (fun x y => x ||| y) a b c s)

/-- R135: the complement of the bitwise OR. -/
def execNor (a b c : RegIdx) (_sh : Shamt) (s : State) : Result := .next (aluRegister (fun x y => ~~~(x ||| y)) a b c s)

/-- R140. -/
def execSlt (a b c : RegIdx) (_sh : Shamt) (s : State) : Result := .next (aluRegister signedLess a b c s)

end Sys2Proof.Machine
end

