-- ==== Sys2Proof/Machine/Control.lean ====
section
/-! DEFINITION. Control transfer (41_control_transfer.md): J, JAL, BEQ, BNE, JR. No delay slot; a target is not checked at the
transfer (R115). -/

namespace Sys2Proof.Machine

/-- R112; `reg_a` and `reg_b` are ignored (30_encoding.md R81). -/
def execJ (_a _b : RegIdx) (imm : Imm) (s : State) : Result :=
  .next (s.setPc (jumpTarget imm))

/-- R113: the link is written from the old pc; `reg_a` and `reg_b` are ignored. -/
def execJal (_a _b : RegIdx) (imm : Imm) (s : State) : Result :=
  .next ((s.setReg linkReg (linkValue s.pc)).setPc (jumpTarget imm))

/-- R110. -/
def execBeq (a b : RegIdx) (imm : Imm) (s : State) : Result :=
  .next (branchIf (equalCond (s.reg a) (s.reg b)) imm s)

/-- R111. -/
def execBne (a b : RegIdx) (imm : Imm) (s : State) : Result :=
  .next (branchIf (!equalCond (s.reg a) (s.reg b)) imm s)

/-- R114; `reg_b`, `reg_c` and `shift` are ignored. -/
def execJr (a _b _c : RegIdx) (_sh : Shamt) (s : State) : Result :=
  .next (s.setPc (registerTarget s a))

end Sys2Proof.Machine
end

