-- ==== Sys2Proof/Machine/LoadStore.lean ====
section
/-! DEFINITION. Loads and stores (43_load_store.md): LW, LBU, SB, SW. A degraded access completes like any other: a load writes 0
(R131, conflict C3), a store does nothing, and the default PC rule applies. -/

namespace Sys2Proof.Machine

/-- R128. -/
def execLw (a b : RegIdx) (imm : Imm) (s : State) : Result :=
  let r := readWord (effectiveAddress s a imm) s
  .next (r.2.writeBack b r.1)

/-- R127: the byte widened with zeros. -/
def execLbu (a b : RegIdx) (imm : Imm) (s : State) : Result :=
  let r := readByte (effectiveAddress s a imm) s
  .next (r.2.writeBack b (r.1.setWidth 16))

/-- R126: the low byte of `x[reg_b]`. A store to the stop port completes, its PC update included, and the machine is halted at the
boundary that follows (60_exceptions.md R155). -/
def execSb (a b : RegIdx) (imm : Imm) (s : State) : Result :=
  let r := writeByte (effectiveAddress s a imm) ((s.reg b).extractLsb' 0 8) s
  .next (if r.2 then r.1.advancePc.halt else r.1.advancePc)

/-- R129. -/
def execSw (a b : RegIdx) (imm : Imm) (s : State) : Result :=
  .next (writeWord (effectiveAddress s a imm) (s.reg b) s).advancePc

end Sys2Proof.Machine
end

