-- ==== Sys2Proof/Machine/Shift.lean ====
section
/-! DEFINITION. Shifts (45_shift.md): SLL, SRL, SRA, each by its arithmetic meaning, computed exactly and narrowed at the end, which
gives one answer for every count 0 to 31 (decision D10 of the spec, log entry 14). -/

namespace Sys2Proof.Machine

/-- R145: multiply by 2^shift, keep the low 16 bits. -/
def shiftLeft (v : Word) (n : Nat) : Word := BitVec.ofNat 16 (v.toNat * 2 ^ n)

/-- R146: unsigned division by 2^shift, rounding down. -/
def shiftRight (v : Word) (n : Nat) : Word := BitVec.ofNat 16 (v.toNat / 2 ^ n)

/-- R147: signed division by 2^shift, rounding toward minus infinity (`/` of Int rounds so for a positive divisor). -/
def shiftRightSigned (v : Word) (n : Nat) : Word := BitVec.ofInt 16 (signed16 v / 2 ^ n)

/-- The shared shape: `x[reg_c] <- f x[reg_b] shift`, then the default PC rule. -/
def shiftOp (f : Word → Nat → Word) (b c : RegIdx) (sh : Shamt) (s : State) : State :=
  s.writeBack c (f (s.reg b) sh.toNat)

/-- R145; `reg_a` is ignored. -/
def execSll (_a b c : RegIdx) (sh : Shamt) (s : State) : Result := .next (shiftOp shiftLeft b c sh s)

/-- R146; `reg_a` is ignored. -/
def execSrl (_a b c : RegIdx) (sh : Shamt) (s : State) : Result := .next (shiftOp shiftRight b c sh s)

/-- R147; `reg_a` is ignored. -/
def execSra (_a b c : RegIdx) (sh : Shamt) (s : State) : Result := .next (shiftOp shiftRightSigned b c sh s)

end Sys2Proof.Machine
end

