-- ==== Sys2Proof/Machine/Dispatch.lean ====
section
/-! DEFINITION. The dispatch router on decoded instructions (40_engine_step.md R91, R92): one arm per row of spec/opcode_table.json,
in the table's order. -/

namespace Sys2Proof.Machine

def exec (i : Instr) (s : State) : Host.Outcome State Fault Refusal :=
  match i with
  | .j a b imm => Sys2Proof.Machine.execJ a b imm s
  | .jal a b imm => Sys2Proof.Machine.execJal a b imm s
  | .beq a b imm => Sys2Proof.Machine.execBeq a b imm s
  | .bne a b imm => Sys2Proof.Machine.execBne a b imm s
  | .addi a b imm => Sys2Proof.Machine.execAddi a b imm s
  | .ori a b imm => Sys2Proof.Machine.execOri a b imm s
  | .lw a b imm => Sys2Proof.Machine.execLw a b imm s
  | .lbu a b imm => Sys2Proof.Machine.execLbu a b imm s
  | .sb a b imm => Sys2Proof.Machine.execSb a b imm s
  | .sw a b imm => Sys2Proof.Machine.execSw a b imm s
  | .sll a b c sh => Sys2Proof.Machine.execSll a b c sh s
  | .srl a b c sh => Sys2Proof.Machine.execSrl a b c sh s
  | .sra a b c sh => Sys2Proof.Machine.execSra a b c sh s
  | .jr a b c sh => Sys2Proof.Machine.execJr a b c sh s
  | .add a b c sh => Sys2Proof.Machine.execAdd a b c sh s
  | .sub a b c sh => Sys2Proof.Machine.execSub a b c sh s
  | .and a b c sh => Sys2Proof.Machine.execAnd a b c sh s
  | .or a b c sh => Sys2Proof.Machine.execOr a b c sh s
  | .nor a b c sh => Sys2Proof.Machine.execNor a b c sh s
  | .slt a b c sh => Sys2Proof.Machine.execSlt a b c sh s

end Sys2Proof.Machine
end

