-- ==== Sys2Proof/Machine/Engine.lean ====
section
/-! DEFINITION. The execution engine (40_engine_step.md): one instruction step, the end of a phase, the start of a Loop iteration,
and the step result. Step.lean calls `engineStep` and nothing else. -/

namespace Sys2Proof.Machine

/-- What a step does with the decoded word: run the instruction, or report the unknown encoding and advance (R91, R94). -/
def runDecoded (d : Decoded) (w : IWord) (s : State) : Result :=
  match d with
  | .instr i => exec i s
  | .unknownOpcode op => .next (s.report (.unknownOpcode op s.pc w)).advancePc
  | .unknownFunction fn => .next (s.report (.unknownFunction fn s.pc w)).advancePc

/-- `step()` of R91: fetch at pc, decode, dispatch. A degraded fetch yields the word 0, which runs like any other (R93). -/
def instructionStep (s : State) : Result :=
  let f := readInstruction s.pc s
  runDecoded (decodeWith s.config.opmap f.1) f.1 f.2

/-- `VRAM_BASE` as the parameters give it or leave it open (R5). -/
def State.vramBase (s : State) : Nat := (s.config.vramBase.getD openVramBase).val

/-- The render event of R102 step 5: the video window read from storage directly, without a check (20_memory.md R57). -/
def renderEvent (s : State) : Render := ⟨s.mem.window s.vramBase vramSize⟩

/-- What follows when a phase has reached pc = 0 without a halt: Setup hands over to Loop (R101); a Loop iteration renders one frame
(R102 step 5). Either way the engine then stands before an iteration. -/
def endPhase (s : State) : State :=
  match s.phase with
  | .setup => { s with phase := .loop, stage := .betweenIterations }
  | .loop => { s with frames := s.frames ++ [renderEvent s], stage := .betweenIterations }

/-- R102 step 1: `pc <- loop_entry`. -/
def beginIteration (s : State) : State := { s.setPc s.loopEntry with stage := .running }

/-- One transition of the engine. Halted, it does nothing for ever (10_state.md R22); before the host's start it executes nothing
(70_reset_and_hazards.md R170); `pc = 0` is tested before each fetch (R100). -/
def engineStep (s : State) : Result :=
  if s.halted then .next s
  else
    match s.stage with
    | .constructed | .mounted => .next s
    | .betweenIterations => .next (beginIteration s)
    | .running => if s.pc = 0#32 then .next (endPhase s) else instructionStep s

/-- The two results of a step, `Continue` and `Halt` (R96). -/
inductive StepResult where
  | continues
  | halts
  deriving DecidableEq, Repr

/-- The result the engine surfaces for a step that ends in a state (R96). -/
def stepResult (s : State) : StepResult := if s.halted then .halts else .continues

end Sys2Proof.Machine
end

