-- ==== Sys2Proof/Machine/Step.lean ====
section
/-! DEFINITION. The step function, and how the host places one instruction where the next step fetches it. -/

namespace Sys2Proof.Machine

/-- One step of the machine: `engineStep` of Engine.lean. -/
def step (s : State) : Host.Outcome State Fault Refusal := engineStep s

/-- Where the next instruction is to be fetched: at pc where that is an address of the ROM, the only region with Execute, else at
0x8200, an address of the ROM clear of the header. -/
def State.fetchAddress (s : State) : Addr :=
  match region s.pc with
  | .rom => s.pc
  | .ram | .ctrl | .stdin | .stdout | .stderr | .stop | .none => 0x8200#32

/-- The state with an instruction's word in the ROM where the next step fetches, and the engine running a phase and not halted: what a
mount and a start bring about from outside (log entry 15). -/
def State.withFetchWord (s : State) (nbits w : Nat) : State :=
  { s with
    pc := s.fetchAddress
    mem := s.mem.writeBlock (alignDown s.fetchAddress 4) (bytesOfWord (BitVec.ofNat 32 (w % 2 ^ nbits)))
    halted := false
    stage := .running }

end Sys2Proof.Machine
end

