-- ==== Sys2Proof/Laws/Memory.lean ====
section
/-! SUPPORT. The laws of the storage: every operation keeps the canonical form, what a read gives after each of them, and that
memories in canonical form with equal reads are equal. -/

namespace Sys2Proof.Machine.Memory

/-! ### The canonical form -/

theorem wfFrom_weaken {low low' : Nat} {m : Memory} (h : wfFrom low m = true) (hl : low' ≤ low) : wfFrom low' m = true := by
  cases m with
  | nil => rfl
  | cons c rest =>
    obtain ⟨k, b⟩ := c
    simp only [wfFrom, Bool.and_eq_true, decide_eq_true_eq] at h ⊢
    exact ⟨⟨⟨le_trans hl h.1.1.1, h.1.1.2⟩, h.1.2⟩, h.2⟩

/-- A canonical list says nothing of the addresses below its bound. -/
theorem read_below {low a : Nat} {m : Memory} (h : wfFrom low m = true) (ha : a < low) : read m a = unlisted := by
  induction m generalizing low with
  | nil => rfl
  | cons c rest ih =>
    obtain ⟨k, b⟩ := c
    simp only [wfFrom, Bool.and_eq_true, decide_eq_true_eq] at h
    have : k ≠ a := by omega
    simp only [read, this, if_false]
    exact ih h.2 (by omega)

/-- Nothing is listed outside the address space. -/
theorem read_above {low a : Nat} {m : Memory} (h : wfFrom low m = true) (ha : memSize ≤ a) : read m a = unlisted := by
  induction m generalizing low with
  | nil => rfl
  | cons c rest ih =>
    obtain ⟨k, b⟩ := c
    simp only [wfFrom, Bool.and_eq_true, decide_eq_true_eq] at h
    have : k ≠ a := by omega
    simp only [read, this, if_false]
    exact ih h.2

/-- A cell in front of a canonical list. -/
theorem wfFrom_cell_append {low a : Nat} {v : Byte} {m : Memory} (hl : low ≤ a) (ha : a < memSize)
    (h : wfFrom (a + 1) m = true) : wfFrom low (cell a v ++ m) = true := by
  unfold cell
  split
  · exact wfFrom_weaken h (by omega)
  · rename_i hv
    simp [wfFrom, hl, ha, hv, h]

theorem wfFrom_write {low a : Nat} {v : Byte} {m : Memory} (h : wfFrom low m = true) (hl : low ≤ a) (ha : a < memSize) :
    wfFrom low (write m a v) = true := by
  induction m generalizing low with
  | nil => simpa [write] using wfFrom_cell_append (m := []) hl ha rfl
  | cons c rest ih =>
    obtain ⟨k, b⟩ := c
    simp only [wfFrom, Bool.and_eq_true, decide_eq_true_eq] at h
    unfold write
    split
    · exact wfFrom_cell_append hl ha (by simp [wfFrom, h.1.1.2, h.1.2, h.2]; omega)
    · split
      · rename_i e
        subst e
        exact wfFrom_cell_append hl ha h.2
      · have hk : k + 1 ≤ a := by omega
        simp only [wfFrom, Bool.and_eq_true, decide_eq_true_eq]
        exact ⟨⟨⟨h.1.1.1, h.1.1.2⟩, h.1.2⟩, ih h.2 hk⟩

/-- A write inside the address space keeps the canonical form. -/
theorem wf_write {a : Nat} {v : Byte} {m : Memory} (h : m.wf = true) (ha : a < memSize) : (m.write a v).wf = true :=
  wfFrom_write h (Nat.zero_le a) ha

theorem wf_nil : wf [] = true := rfl

/-! ### Reads -/

theorem read_cell_append (a x : Nat) (v : Byte) (m : Memory) :
    read (cell a v ++ m) x = if x = a ∧ v ≠ unlisted then v else read m x := by
  unfold cell
  by_cases hv : v = unlisted
  · simp [hv]
  · by_cases hx : x = a
    · simp [hv, hx, read]
    · simp [hv, hx, read, Ne.symm hx]

/-- A write leaves every other address alone, canonical or not. -/
theorem read_write_of_ne {m : Memory} {a x : Nat} {v : Byte} (h : x ≠ a) : (m.write a v).read x = m.read x := by
  induction m with
  | nil =>
    have := read_cell_append a x v []
    simpa [write, h] using this
  | cons c rest ih =>
    obtain ⟨k, b⟩ := c
    unfold write
    split
    · simp [read_cell_append, h]
    · split
      · rename_i e
        subst e
        simp [read_cell_append, h, read, Ne.symm h]
      · simp [read, ih]

theorem read_write_self_from {low a : Nat} {v : Byte} {m : Memory} (h : wfFrom low m = true) : (write m a v).read a = v := by
  induction m generalizing low with
  | nil =>
    have := read_cell_append a a v []
    by_cases hv : v = unlisted <;> simp_all [write, read]
  | cons c rest ih =>
    obtain ⟨k, b⟩ := c
    simp only [wfFrom, Bool.and_eq_true, decide_eq_true_eq] at h
    unfold write
    split
    · rename_i hk
      have hb : wfFrom k ((k, b) :: rest) = true := by simp [wfFrom, h.1.1.2, h.1.2, h.2]
      rw [read_cell_append]
      by_cases hv : v = unlisted
      · simp [hv, read_below hb hk]
      · simp [hv]
    · split
      · rename_i e
        rw [read_cell_append]
        by_cases hv : v = unlisted
        · simp [hv, read_below h.2 (show a < k + 1 by omega)]
        · simp [hv]
      · rename_i hne
        simp only [read, Ne.symm hne, if_false]
        exact ih h.2

/-- A read after a write to the same address gives the value written. -/
theorem read_write_self {m : Memory} {a : Nat} {v : Byte} (h : m.wf = true) : (m.write a v).read a = v :=
  read_write_self_from h

/-! ### Blocks -/

theorem wfFrom_ofBytes_append {base : Nat} {bytes : List Byte} {m : Memory} (h : base + bytes.length ≤ memSize)
    (hm : wfFrom (base + bytes.length) m = true) : wfFrom base (ofBytes base bytes ++ m) = true := by
  induction bytes generalizing base with
  | nil => simpa [ofBytes] using hm
  | cons b bs ih =>
    simp only [List.length_cons] at h hm
    have := ih (base := base + 1) (by omega) (by rwa [show base + 1 + bs.length = base + (bs.length + 1) by omega])
    simpa [ofBytes, List.append_assoc] using wfFrom_cell_append (v := b) (le_refl base) (by omega) this

/-- A block of bytes inside the address space is canonical. -/
theorem wf_ofBytes {bytes : List Byte} (h : bytes.length ≤ memSize) : (ofBytes 0 bytes).wf = true := by
  have := wfFrom_ofBytes_append (base := 0) (bytes := bytes) (m := []) (by omega) rfl
  simpa [wf] using this

theorem wfFrom_filter {low : Nat} {m : Memory} (p : Host.Cell → Bool) (h : wfFrom low m = true) :
    wfFrom low (m.filter p) = true := by
  induction m generalizing low with
  | nil => rfl
  | cons c rest ih =>
    obtain ⟨k, b⟩ := c
    simp only [wfFrom, Bool.and_eq_true, decide_eq_true_eq] at h
    by_cases hp : p (k, b) = true
    · simp only [List.filter_cons_of_pos hp, wfFrom, Bool.and_eq_true, decide_eq_true_eq]
      exact ⟨h.1, ih h.2⟩
    · rw [List.filter_cons_of_neg hp]
      exact wfFrom_weaken (ih h.2) (by omega)

/-- The cells from an address on, as a canonical list from that address. -/
theorem wfFrom_filter_ge {low base : Nat} {m : Memory} (h : wfFrom low m = true) :
    wfFrom base (m.filter fun c => base ≤ c.1) = true := by
  induction m generalizing low with
  | nil => rfl
  | cons c rest ih =>
    obtain ⟨k, b⟩ := c
    simp only [wfFrom, Bool.and_eq_true, decide_eq_true_eq] at h
    by_cases hk : base ≤ k
    · rw [List.filter_cons_of_pos (by simpa using hk)]
      simp only [wfFrom, Bool.and_eq_true, decide_eq_true_eq]
      exact ⟨⟨⟨hk, h.1.1.2⟩, h.1.2⟩, wfFrom_filter _ h.2⟩
    · rw [List.filter_cons_of_neg (by simpa using hk)]
      exact ih h.2

theorem wfFrom_filter_lt_append {low base : Nat} {m n : Memory} (h : wfFrom low m = true) (hn : wfFrom base n = true)
    (hl : low ≤ base) : wfFrom low ((m.filter fun c => c.1 < base) ++ n) = true := by
  induction m generalizing low with
  | nil => exact wfFrom_weaken hn hl
  | cons c rest ih =>
    obtain ⟨k, b⟩ := c
    simp only [wfFrom, Bool.and_eq_true, decide_eq_true_eq] at h
    by_cases hk : k < base
    · rw [List.filter_cons_of_pos (by simpa using hk)]
      simp only [List.cons_append, wfFrom, Bool.and_eq_true, decide_eq_true_eq]
      exact ⟨h.1, ih h.2 (by omega)⟩
    · rw [List.filter_cons_of_neg (by simpa using hk)]
      exact wfFrom_weaken (ih (wfFrom_weaken h.2 (show low ≤ k + 1 by omega)) hl) (le_refl low)

/-- Replacing a block inside the address space keeps the canonical form. -/
theorem wf_writeBlock {m : Memory} {base : Nat} {bytes : List Byte} (h : m.wf = true) (hb : base + bytes.length ≤ memSize) :
    (m.writeBlock base bytes).wf = true := by
  unfold writeBlock wf
  rw [List.append_assoc]
  exact wfFrom_filter_lt_append h (wfFrom_ofBytes_append hb (wfFrom_filter_ge h)) (Nat.zero_le base)

theorem read_filter (m : Memory) (p : Nat → Bool) (x : Nat) :
    read (m.filter fun c => p c.1) x = if p x then read m x else unlisted := by
  induction m with
  | nil => simp [read]
  | cons c rest ih =>
    obtain ⟨k, b⟩ := c
    by_cases hp : p k = true
    · rw [List.filter_cons_of_pos (by simpa using hp)]
      by_cases hk : k = x
      · subst hk; simp [read, hp]
      · simp [read, hk, ih]
    · rw [List.filter_cons_of_neg (by simpa using hp), ih]
      by_cases hk : k = x
      · subst hk; simp [hp]
      · simp [read, hk]

/-- A list that does not list an address reads there as unlisted. -/
theorem read_of_unlisted {m : Memory} {x : Nat} (h : ∀ c ∈ m, c.1 ≠ x) : read m x = unlisted := by
  induction m with
  | nil => rfl
  | cons c rest ih =>
    obtain ⟨k, b⟩ := c
    have hk : k ≠ x := h (k, b) (by simp)
    simp only [read, hk, if_false]
    exact ih fun c hc => h c (by simp [hc])

/-- Reading through a list that does not list the address. -/
theorem read_append_of_unlisted {m n : Memory} {x : Nat} (h : ∀ c ∈ m, c.1 ≠ x) : read (m ++ n) x = read n x := by
  induction m with
  | nil => rfl
  | cons c rest ih =>
    obtain ⟨k, b⟩ := c
    have hk : k ≠ x := h (k, b) (by simp)
    simp only [List.cons_append, read, hk, if_false]
    exact ih fun c hc => h c (by simp [hc])

/-- Reading from a list that lists the address. -/
theorem read_append_of_listed {m n : Memory} {x : Nat} (h : ∃ c ∈ m, c.1 = x) : read (m ++ n) x = read m x := by
  induction m with
  | nil => simp at h
  | cons c rest ih =>
    obtain ⟨k, b⟩ := c
    by_cases hk : k = x
    · simp [read, hk]
    · simp only [List.cons_append, read, hk, if_false]
      exact ih (by simpa [hk] using h)

/-- The bytes of a block, then what lies behind. -/
theorem read_ofBytes_append {base x : Nat} {bytes : List Byte} {n : Memory}
    (hn : ∀ c ∈ n, ¬(base ≤ c.1 ∧ c.1 < base + bytes.length)) :
    read (ofBytes base bytes ++ n) x =
      if base ≤ x ∧ x < base + bytes.length then bytes.getD (x - base) unlisted else read n x := by
  induction bytes generalizing base with
  | nil =>
    have : ¬(base ≤ x ∧ x < base + ([] : List Byte).length) := by simp only [List.length_nil]; omega
    simp only [this, if_false, ofBytes, List.nil_append]
  | cons b bs ih =>
    simp only [List.length_cons] at hn
    simp only [ofBytes, List.append_assoc, List.length_cons]
    rw [read_cell_append, ih fun c hc => by have := hn c hc; omega]
    by_cases hx : x = base
    · subst hx
      have h3 : read n x = unlisted := read_of_unlisted fun c hc e => hn c hc (by omega)
      by_cases hv : b = unlisted <;> simp [hv, h3]
    · simp only [hx, false_and, if_false]
      by_cases hr : base + 1 ≤ x ∧ x < base + 1 + bs.length
      · have h2 : base ≤ x ∧ x < base + (bs.length + 1) := by omega
        obtain ⟨d, rfl⟩ : ∃ d, x = base + 1 + d := ⟨x - (base + 1), by omega⟩
        rw [if_pos hr, if_pos h2, show base + 1 + d - base = d + 1 by omega, show base + 1 + d - (base + 1) = d by omega]
        simp
      · have h2 : ¬(base ≤ x ∧ x < base + (bs.length + 1)) := by omega
        rw [if_neg hr, if_neg h2]

/-- What a read gives after a block was replaced: the block's byte inside it, the old byte outside it. -/
theorem read_writeBlock (m : Memory) (base : Nat) (bytes : List Byte) (x : Nat) :
    (m.writeBlock base bytes).read x =
      if base ≤ x ∧ x < base + bytes.length then bytes.getD (x - base) unlisted else m.read x := by
  have low := read_filter m (fun k => decide (k < base)) x
  have high := read_filter m (fun k => decide (base + bytes.length ≤ k)) x
  have block := read_ofBytes_append (base := base) (x := x) (bytes := bytes)
    (n := m.filter fun c => base + bytes.length ≤ c.1) (by
      intro c hc
      simp only [List.mem_filter, decide_eq_true_eq] at hc
      omega)
  unfold writeBlock
  rw [List.append_assoc]
  by_cases hl : ∃ c ∈ m.filter (fun c => c.1 < base), c.1 = x
  · have hx : x < base := by
      obtain ⟨c, hc, rfl⟩ := hl
      simpa using (List.mem_filter.mp hc).2
    rw [read_append_of_listed hl, low, if_neg (show ¬(base ≤ x ∧ x < base + bytes.length) by omega)]
    simp [hx]
  · have hno : ∀ c ∈ m.filter (fun c => c.1 < base), c.1 ≠ x := fun c hc e => hl ⟨c, hc, e⟩
    rw [read_append_of_unlisted hno, block]
    split
    · rfl
    · rename_i hout
      rw [high]
      by_cases hx : base + bytes.length ≤ x
      · simp [hx]
      · rw [read_of_unlisted hno] at low
        have hxb : x < base := by omega
        simp only [hxb, decide_true, if_true] at low
        simp [hx, ← low]

/-- What a read gives in a memory made of one block. -/
theorem read_ofBytes (base x : Nat) (bytes : List Byte) :
    read (ofBytes base bytes) x =
      if base ≤ x ∧ x < base + bytes.length then bytes.getD (x - base) unlisted else unlisted := by
  have := read_ofBytes_append (base := base) (x := x) (bytes := bytes) (n := []) (by simp)
  simpa [read] using this

/-! ### Equal reads, equal memories -/

theorem eq_of_read_eq_from {low : Nat} {m n : Memory} (hm : wfFrom low m = true) (hn : wfFrom low n = true)
    (h : ∀ a, read m a = read n a) : m = n := by
  induction m generalizing low n with
  | nil =>
    cases n with
    | nil => rfl
    | cons c rest =>
      obtain ⟨k, b⟩ := c
      simp only [wfFrom, Bool.and_eq_true, decide_eq_true_eq] at hn
      exact absurd (by simpa [read] using (h k).symm) hn.1.2
  | cons c rest ih =>
    obtain ⟨k, b⟩ := c
    have hm0 : wfFrom k ((k, b) :: rest) = true := by
      simp only [wfFrom, Bool.and_eq_true, decide_eq_true_eq] at hm ⊢
      exact ⟨⟨⟨le_refl k, hm.1.1.2⟩, hm.1.2⟩, hm.2⟩
    simp only [wfFrom, Bool.and_eq_true, decide_eq_true_eq] at hm
    cases n with
    | nil => exact absurd (by simpa [read] using h k) hm.1.2
    | cons c' rest' =>
      obtain ⟨k', b'⟩ := c'
      have hn0 : wfFrom k' ((k', b') :: rest') = true := by
        simp only [wfFrom, Bool.and_eq_true, decide_eq_true_eq] at hn ⊢
        exact ⟨⟨⟨le_refl k', hn.1.1.2⟩, hn.1.2⟩, hn.2⟩
      simp only [wfFrom, Bool.and_eq_true, decide_eq_true_eq] at hn
      have hk : k = k' := by
        rcases Nat.lt_trichotomy k k' with hlt | heq | hgt
        · exact absurd ((by simpa [read] using h k : b = _).trans (read_below hn0 hlt)) hm.1.2
        · exact heq
        · exact absurd ((by simpa [read] using (h k').symm : b' = _).trans (read_below hm0 hgt)) hn.1.2
      subst hk
      have hb : b = b' := by simpa [read] using h k
      subst hb
      refine congrArg _ (ih hm.2 hn.2 fun a => ?_)
      by_cases ha : k = a
      · subst ha
        rw [read_below hm.2 (Nat.lt_succ_self k), read_below hn.2 (Nat.lt_succ_self k)]
      · simpa [read, ha] using h a

/-- The canonical form is canonical: equal reads make equal lists. -/
theorem eq_of_read_eq {m n : Memory} (hm : m.wf = true) (hn : n.wf = true) (h : ∀ a, m.read a = n.read a) : m = n :=
  eq_of_read_eq_from hm hn h

/-! ### Storage that holds one value -/

theorem wf_filled (v : Byte) : (filled v).wf = true := by
  unfold filled
  split
  · rfl
  · exact wf_ofBytes (Nat.le_of_eq (List.length_replicate ..))

theorem read_filled (v : Byte) {x : Nat} (hx : x < memSize) : (filled v).read x = v := by
  unfold filled
  split
  · rename_i h
    rw [h]
    rfl
  · rw [read_ofBytes, List.length_replicate, if_pos ⟨Nat.zero_le x, by omega⟩, List.getD_eq_getElem?_getD,
      List.getElem?_replicate, if_pos (by omega)]
    rfl

@[simp] theorem window_length (m : Memory) (base size : Nat) : (m.window base size).length = size := by
  simp [window]

end Sys2Proof.Machine.Memory
end

