-- ==== Sys2Proof/Laws/State.lean ====
section
/-! SUPPORT. What each update of the state does to each field, once, so that no later proof unfolds a record update; and the register
file's read after write (10_state.md R11, R12). -/

namespace Sys2Proof.Machine

/-! ### Reduction to the address width -/

theorem addrWidth_bits_le (w : AddrWidth) : w.bits ≤ 32 := by cases w <;> decide

@[simp] theorem narrow_toNat (w : AddrWidth) (a : Addr) : (narrow w a).toNat = a.toNat % 2 ^ w.bits := by
  have h1 := Nat.mod_le a.toNat (2 ^ w.bits)
  have h2 := a.isLt
  simp only [narrow, BitVec.toNat_ofNat]
  omega

theorem narrow_lt (w : AddrWidth) (a : Addr) : (narrow w a).toNat < 2 ^ w.bits := by
  rw [narrow_toNat]
  exact Nat.mod_lt _ (Nat.two_pow_pos _)

/-- Nothing is reduced that fits. -/
theorem narrow_of_lt {w : AddrWidth} {a : Addr} (h : a.toNat < 2 ^ w.bits) : narrow w a = a :=
  BitVec.eq_of_toNat_eq (by rw [narrow_toNat, Nat.mod_eq_of_lt h])

/-- Under `AW` = 32 nothing is reduced. -/
@[simp] theorem narrow_bits32 (a : Addr) : narrow .bits32 a = a := narrow_of_lt a.isLt

@[simp] theorem narrow_narrow (w : AddrWidth) (a : Addr) : narrow w (narrow w a) = narrow w a := narrow_of_lt (narrow_lt w a)

end Sys2Proof.Machine

namespace Sys2Proof.Machine.State

variable (s : State)

@[simp] theorem setReg_pc (i : RegIdx) (v : Word) : (s.setReg i v).pc = s.pc := rfl
@[simp] theorem setReg_mem (i : RegIdx) (v : Word) : (s.setReg i v).mem = s.mem := rfl
@[simp] theorem setReg_phase (i : RegIdx) (v : Word) : (s.setReg i v).phase = s.phase := rfl
@[simp] theorem setReg_halted (i : RegIdx) (v : Word) : (s.setReg i v).halted = s.halted := rfl
@[simp] theorem setReg_setupEntry (i : RegIdx) (v : Word) : (s.setReg i v).setupEntry = s.setupEntry := rfl
@[simp] theorem setReg_loopEntry (i : RegIdx) (v : Word) : (s.setReg i v).loopEntry = s.loopEntry := rfl
@[simp] theorem setReg_ctrl (i : RegIdx) (v : Word) : (s.setReg i v).ctrl = s.ctrl := rfl
@[simp] theorem setReg_stdin (i : RegIdx) (v : Word) : (s.setReg i v).stdin = s.stdin := rfl
@[simp] theorem setReg_stdinPos (i : RegIdx) (v : Word) : (s.setReg i v).stdinPos = s.stdinPos := rfl
@[simp] theorem setReg_stdout (i : RegIdx) (v : Word) : (s.setReg i v).stdout = s.stdout := rfl
@[simp] theorem setReg_stderr (i : RegIdx) (v : Word) : (s.setReg i v).stderr = s.stderr := rfl
@[simp] theorem setReg_diaglog (i : RegIdx) (v : Word) : (s.setReg i v).diaglog = s.diaglog := rfl
@[simp] theorem setReg_frames (i : RegIdx) (v : Word) : (s.setReg i v).frames = s.frames := rfl
@[simp] theorem setReg_stage (i : RegIdx) (v : Word) : (s.setReg i v).stage = s.stage := rfl
@[simp] theorem setReg_config (i : RegIdx) (v : Word) : (s.setReg i v).config = s.config := rfl

@[simp] theorem setPc_regs (t : Addr) : (s.setPc t).regs = s.regs := rfl
@[simp] theorem setPc_pc (t : Addr) : (s.setPc t).pc = narrow s.config.addrWidth t := rfl
@[simp] theorem setPc_mem (t : Addr) : (s.setPc t).mem = s.mem := rfl
@[simp] theorem setPc_phase (t : Addr) : (s.setPc t).phase = s.phase := rfl
@[simp] theorem setPc_halted (t : Addr) : (s.setPc t).halted = s.halted := rfl
@[simp] theorem setPc_setupEntry (t : Addr) : (s.setPc t).setupEntry = s.setupEntry := rfl
@[simp] theorem setPc_loopEntry (t : Addr) : (s.setPc t).loopEntry = s.loopEntry := rfl
@[simp] theorem setPc_ctrl (t : Addr) : (s.setPc t).ctrl = s.ctrl := rfl
@[simp] theorem setPc_stdin (t : Addr) : (s.setPc t).stdin = s.stdin := rfl
@[simp] theorem setPc_stdinPos (t : Addr) : (s.setPc t).stdinPos = s.stdinPos := rfl
@[simp] theorem setPc_stdout (t : Addr) : (s.setPc t).stdout = s.stdout := rfl
@[simp] theorem setPc_stderr (t : Addr) : (s.setPc t).stderr = s.stderr := rfl
@[simp] theorem setPc_diaglog (t : Addr) : (s.setPc t).diaglog = s.diaglog := rfl
@[simp] theorem setPc_frames (t : Addr) : (s.setPc t).frames = s.frames := rfl
@[simp] theorem setPc_stage (t : Addr) : (s.setPc t).stage = s.stage := rfl
@[simp] theorem setPc_config (t : Addr) : (s.setPc t).config = s.config := rfl
@[simp] theorem setPc_reg (t : Addr) (r : RegIdx) : (s.setPc t).reg r = s.reg r := rfl

@[simp] theorem advancePc_regs : (s.advancePc).regs = s.regs := rfl
@[simp] theorem advancePc_pc : (s.advancePc).pc = narrow s.config.addrWidth (s.pc + 4#32) := rfl
@[simp] theorem advancePc_mem : (s.advancePc).mem = s.mem := rfl
@[simp] theorem advancePc_phase : (s.advancePc).phase = s.phase := rfl
@[simp] theorem advancePc_halted : (s.advancePc).halted = s.halted := rfl
@[simp] theorem advancePc_setupEntry : (s.advancePc).setupEntry = s.setupEntry := rfl
@[simp] theorem advancePc_loopEntry : (s.advancePc).loopEntry = s.loopEntry := rfl
@[simp] theorem advancePc_ctrl : (s.advancePc).ctrl = s.ctrl := rfl
@[simp] theorem advancePc_stdin : (s.advancePc).stdin = s.stdin := rfl
@[simp] theorem advancePc_stdinPos : (s.advancePc).stdinPos = s.stdinPos := rfl
@[simp] theorem advancePc_stdout : (s.advancePc).stdout = s.stdout := rfl
@[simp] theorem advancePc_stderr : (s.advancePc).stderr = s.stderr := rfl
@[simp] theorem advancePc_diaglog : (s.advancePc).diaglog = s.diaglog := rfl
@[simp] theorem advancePc_frames : (s.advancePc).frames = s.frames := rfl
@[simp] theorem advancePc_stage : (s.advancePc).stage = s.stage := rfl
@[simp] theorem advancePc_config : (s.advancePc).config = s.config := rfl
@[simp] theorem advancePc_reg (r : RegIdx) : (s.advancePc).reg r = s.reg r := rfl

@[simp] theorem report_regs (d : Diag) : (s.report d).regs = s.regs := rfl
@[simp] theorem report_pc (d : Diag) : (s.report d).pc = s.pc := rfl
@[simp] theorem report_mem (d : Diag) : (s.report d).mem = s.mem := rfl
@[simp] theorem report_phase (d : Diag) : (s.report d).phase = s.phase := rfl
@[simp] theorem report_halted (d : Diag) : (s.report d).halted = s.halted := rfl
@[simp] theorem report_setupEntry (d : Diag) : (s.report d).setupEntry = s.setupEntry := rfl
@[simp] theorem report_loopEntry (d : Diag) : (s.report d).loopEntry = s.loopEntry := rfl
@[simp] theorem report_ctrl (d : Diag) : (s.report d).ctrl = s.ctrl := rfl
@[simp] theorem report_stdin (d : Diag) : (s.report d).stdin = s.stdin := rfl
@[simp] theorem report_stdinPos (d : Diag) : (s.report d).stdinPos = s.stdinPos := rfl
@[simp] theorem report_stdout (d : Diag) : (s.report d).stdout = s.stdout := rfl
@[simp] theorem report_stderr (d : Diag) : (s.report d).stderr = s.stderr := rfl
@[simp] theorem report_diaglog (d : Diag) : (s.report d).diaglog = s.diaglog ++ [d] := rfl
@[simp] theorem report_frames (d : Diag) : (s.report d).frames = s.frames := rfl
@[simp] theorem report_stage (d : Diag) : (s.report d).stage = s.stage := rfl
@[simp] theorem report_config (d : Diag) : (s.report d).config = s.config := rfl
@[simp] theorem report_reg (d : Diag) (r : RegIdx) : (s.report d).reg r = s.reg r := rfl

@[simp] theorem violation_regs (a : Addr) (k : Permission) (w : Width) : (s.violation a k w).regs = s.regs := rfl
@[simp] theorem violation_pc (a : Addr) (k : Permission) (w : Width) : (s.violation a k w).pc = s.pc := rfl
@[simp] theorem violation_mem (a : Addr) (k : Permission) (w : Width) : (s.violation a k w).mem = s.mem := rfl
@[simp] theorem violation_phase (a : Addr) (k : Permission) (w : Width) : (s.violation a k w).phase = s.phase := rfl
@[simp] theorem violation_halted (a : Addr) (k : Permission) (w : Width) : (s.violation a k w).halted = s.halted := rfl
@[simp] theorem violation_setupEntry (a : Addr) (k : Permission) (w : Width) : (s.violation a k w).setupEntry = s.setupEntry := rfl
@[simp] theorem violation_loopEntry (a : Addr) (k : Permission) (w : Width) : (s.violation a k w).loopEntry = s.loopEntry := rfl
@[simp] theorem violation_ctrl (a : Addr) (k : Permission) (w : Width) : (s.violation a k w).ctrl = s.ctrl := rfl
@[simp] theorem violation_stdin (a : Addr) (k : Permission) (w : Width) : (s.violation a k w).stdin = s.stdin := rfl
@[simp] theorem violation_stdinPos (a : Addr) (k : Permission) (w : Width) : (s.violation a k w).stdinPos = s.stdinPos := rfl
@[simp] theorem violation_stdout (a : Addr) (k : Permission) (w : Width) : (s.violation a k w).stdout = s.stdout := rfl
@[simp] theorem violation_stderr (a : Addr) (k : Permission) (w : Width) : (s.violation a k w).stderr = s.stderr := rfl
@[simp] theorem violation_diaglog (a : Addr) (k : Permission) (w : Width) :
    (s.violation a k w).diaglog = s.diaglog ++ [.permissionViolation a k w] := rfl
@[simp] theorem violation_frames (a : Addr) (k : Permission) (w : Width) : (s.violation a k w).frames = s.frames := rfl
@[simp] theorem violation_stage (a : Addr) (k : Permission) (w : Width) : (s.violation a k w).stage = s.stage := rfl
@[simp] theorem violation_config (a : Addr) (k : Permission) (w : Width) : (s.violation a k w).config = s.config := rfl
@[simp] theorem violation_reg (a : Addr) (k : Permission) (w : Width) (r : RegIdx) : (s.violation a k w).reg r = s.reg r := rfl

@[simp] theorem halt_regs : (s.halt).regs = s.regs := rfl
@[simp] theorem halt_pc : (s.halt).pc = s.pc := rfl
@[simp] theorem halt_mem : (s.halt).mem = s.mem := rfl
@[simp] theorem halt_phase : (s.halt).phase = s.phase := rfl
@[simp] theorem halt_halted : (s.halt).halted = true := rfl
@[simp] theorem halt_setupEntry : (s.halt).setupEntry = s.setupEntry := rfl
@[simp] theorem halt_loopEntry : (s.halt).loopEntry = s.loopEntry := rfl
@[simp] theorem halt_ctrl : (s.halt).ctrl = s.ctrl := rfl
@[simp] theorem halt_stdin : (s.halt).stdin = s.stdin := rfl
@[simp] theorem halt_stdinPos : (s.halt).stdinPos = s.stdinPos := rfl
@[simp] theorem halt_stdout : (s.halt).stdout = s.stdout := rfl
@[simp] theorem halt_stderr : (s.halt).stderr = s.stderr := rfl
@[simp] theorem halt_diaglog : (s.halt).diaglog = s.diaglog := rfl
@[simp] theorem halt_frames : (s.halt).frames = s.frames := rfl
@[simp] theorem halt_stage : (s.halt).stage = s.stage := rfl
@[simp] theorem halt_config : (s.halt).config = s.config := rfl
@[simp] theorem halt_reg (r : RegIdx) : (s.halt).reg r = s.reg r := rfl

@[simp] theorem emitStdout_regs (b : Byte) : (s.emitStdout b).regs = s.regs := rfl
@[simp] theorem emitStdout_pc (b : Byte) : (s.emitStdout b).pc = s.pc := rfl
@[simp] theorem emitStdout_mem (b : Byte) : (s.emitStdout b).mem = s.mem := rfl
@[simp] theorem emitStdout_phase (b : Byte) : (s.emitStdout b).phase = s.phase := rfl
@[simp] theorem emitStdout_halted (b : Byte) : (s.emitStdout b).halted = s.halted := rfl
@[simp] theorem emitStdout_setupEntry (b : Byte) : (s.emitStdout b).setupEntry = s.setupEntry := rfl
@[simp] theorem emitStdout_loopEntry (b : Byte) : (s.emitStdout b).loopEntry = s.loopEntry := rfl
@[simp] theorem emitStdout_ctrl (b : Byte) : (s.emitStdout b).ctrl = s.ctrl := rfl
@[simp] theorem emitStdout_stdin (b : Byte) : (s.emitStdout b).stdin = s.stdin := rfl
@[simp] theorem emitStdout_stdinPos (b : Byte) : (s.emitStdout b).stdinPos = s.stdinPos := rfl
@[simp] theorem emitStdout_stdout (b : Byte) : (s.emitStdout b).stdout = s.stdout ++ [b] := rfl
@[simp] theorem emitStdout_stderr (b : Byte) : (s.emitStdout b).stderr = s.stderr := rfl
@[simp] theorem emitStdout_diaglog (b : Byte) : (s.emitStdout b).diaglog = s.diaglog := rfl
@[simp] theorem emitStdout_frames (b : Byte) : (s.emitStdout b).frames = s.frames := rfl
@[simp] theorem emitStdout_stage (b : Byte) : (s.emitStdout b).stage = s.stage := rfl
@[simp] theorem emitStdout_config (b : Byte) : (s.emitStdout b).config = s.config := rfl
@[simp] theorem emitStdout_reg (b : Byte) (r : RegIdx) : (s.emitStdout b).reg r = s.reg r := rfl

@[simp] theorem emitStderr_regs (b : Byte) : (s.emitStderr b).regs = s.regs := rfl
@[simp] theorem emitStderr_pc (b : Byte) : (s.emitStderr b).pc = s.pc := rfl
@[simp] theorem emitStderr_mem (b : Byte) : (s.emitStderr b).mem = s.mem := rfl
@[simp] theorem emitStderr_phase (b : Byte) : (s.emitStderr b).phase = s.phase := rfl
@[simp] theorem emitStderr_halted (b : Byte) : (s.emitStderr b).halted = s.halted := rfl
@[simp] theorem emitStderr_setupEntry (b : Byte) : (s.emitStderr b).setupEntry = s.setupEntry := rfl
@[simp] theorem emitStderr_loopEntry (b : Byte) : (s.emitStderr b).loopEntry = s.loopEntry := rfl
@[simp] theorem emitStderr_ctrl (b : Byte) : (s.emitStderr b).ctrl = s.ctrl := rfl
@[simp] theorem emitStderr_stdin (b : Byte) : (s.emitStderr b).stdin = s.stdin := rfl
@[simp] theorem emitStderr_stdinPos (b : Byte) : (s.emitStderr b).stdinPos = s.stdinPos := rfl
@[simp] theorem emitStderr_stdout (b : Byte) : (s.emitStderr b).stdout = s.stdout := rfl
@[simp] theorem emitStderr_stderr (b : Byte) : (s.emitStderr b).stderr = s.stderr ++ [b] := rfl
@[simp] theorem emitStderr_diaglog (b : Byte) : (s.emitStderr b).diaglog = s.diaglog := rfl
@[simp] theorem emitStderr_frames (b : Byte) : (s.emitStderr b).frames = s.frames := rfl
@[simp] theorem emitStderr_stage (b : Byte) : (s.emitStderr b).stage = s.stage := rfl
@[simp] theorem emitStderr_config (b : Byte) : (s.emitStderr b).config = s.config := rfl
@[simp] theorem emitStderr_reg (b : Byte) (r : RegIdx) : (s.emitStderr b).reg r = s.reg r := rfl

@[simp] theorem storeByte_regs (a : Nat) (b : Byte) : (s.storeByte a b).regs = s.regs := rfl
@[simp] theorem storeByte_pc (a : Nat) (b : Byte) : (s.storeByte a b).pc = s.pc := rfl
@[simp] theorem storeByte_mem (a : Nat) (b : Byte) : (s.storeByte a b).mem = s.mem.write a b := rfl
@[simp] theorem storeByte_phase (a : Nat) (b : Byte) : (s.storeByte a b).phase = s.phase := rfl
@[simp] theorem storeByte_halted (a : Nat) (b : Byte) : (s.storeByte a b).halted = s.halted := rfl
@[simp] theorem storeByte_setupEntry (a : Nat) (b : Byte) : (s.storeByte a b).setupEntry = s.setupEntry := rfl
@[simp] theorem storeByte_loopEntry (a : Nat) (b : Byte) : (s.storeByte a b).loopEntry = s.loopEntry := rfl
@[simp] theorem storeByte_ctrl (a : Nat) (b : Byte) : (s.storeByte a b).ctrl = s.ctrl := rfl
@[simp] theorem storeByte_stdin (a : Nat) (b : Byte) : (s.storeByte a b).stdin = s.stdin := rfl
@[simp] theorem storeByte_stdinPos (a : Nat) (b : Byte) : (s.storeByte a b).stdinPos = s.stdinPos := rfl
@[simp] theorem storeByte_stdout (a : Nat) (b : Byte) : (s.storeByte a b).stdout = s.stdout := rfl
@[simp] theorem storeByte_stderr (a : Nat) (b : Byte) : (s.storeByte a b).stderr = s.stderr := rfl
@[simp] theorem storeByte_diaglog (a : Nat) (b : Byte) : (s.storeByte a b).diaglog = s.diaglog := rfl
@[simp] theorem storeByte_frames (a : Nat) (b : Byte) : (s.storeByte a b).frames = s.frames := rfl
@[simp] theorem storeByte_stage (a : Nat) (b : Byte) : (s.storeByte a b).stage = s.stage := rfl
@[simp] theorem storeByte_config (a : Nat) (b : Byte) : (s.storeByte a b).config = s.config := rfl
@[simp] theorem storeByte_reg (a : Nat) (b : Byte) (r : RegIdx) : (s.storeByte a b).reg r = s.reg r := rfl

@[simp] theorem writeBack_pc (i : RegIdx) (v : Word) : (s.writeBack i v).pc = narrow s.config.addrWidth (s.pc + 4#32) := rfl
@[simp] theorem writeBack_mem (i : RegIdx) (v : Word) : (s.writeBack i v).mem = s.mem := rfl
@[simp] theorem writeBack_phase (i : RegIdx) (v : Word) : (s.writeBack i v).phase = s.phase := rfl
@[simp] theorem writeBack_halted (i : RegIdx) (v : Word) : (s.writeBack i v).halted = s.halted := rfl
@[simp] theorem writeBack_setupEntry (i : RegIdx) (v : Word) : (s.writeBack i v).setupEntry = s.setupEntry := rfl
@[simp] theorem writeBack_loopEntry (i : RegIdx) (v : Word) : (s.writeBack i v).loopEntry = s.loopEntry := rfl
@[simp] theorem writeBack_ctrl (i : RegIdx) (v : Word) : (s.writeBack i v).ctrl = s.ctrl := rfl
@[simp] theorem writeBack_stdin (i : RegIdx) (v : Word) : (s.writeBack i v).stdin = s.stdin := rfl
@[simp] theorem writeBack_stdinPos (i : RegIdx) (v : Word) : (s.writeBack i v).stdinPos = s.stdinPos := rfl
@[simp] theorem writeBack_stdout (i : RegIdx) (v : Word) : (s.writeBack i v).stdout = s.stdout := rfl
@[simp] theorem writeBack_stderr (i : RegIdx) (v : Word) : (s.writeBack i v).stderr = s.stderr := rfl
@[simp] theorem writeBack_diaglog (i : RegIdx) (v : Word) : (s.writeBack i v).diaglog = s.diaglog := rfl
@[simp] theorem writeBack_frames (i : RegIdx) (v : Word) : (s.writeBack i v).frames = s.frames := rfl
@[simp] theorem writeBack_stage (i : RegIdx) (v : Word) : (s.writeBack i v).stage = s.stage := rfl
@[simp] theorem writeBack_config (i : RegIdx) (v : Word) : (s.writeBack i v).config = s.config := rfl

/-! ### Reset -/

@[simp] theorem resetWith_pc (c : Config) : (resetWith c).pc = 0#32 := rfl
@[simp] theorem resetWith_mem (c : Config) : (resetWith c).mem = Memory.filled c.memReset := rfl
@[simp] theorem resetWith_phase (c : Config) : (resetWith c).phase = .setup := rfl
@[simp] theorem resetWith_halted (c : Config) : (resetWith c).halted = false := rfl
@[simp] theorem resetWith_setupEntry (c : Config) : (resetWith c).setupEntry = latchReset := rfl
@[simp] theorem resetWith_loopEntry (c : Config) : (resetWith c).loopEntry = latchReset := rfl
@[simp] theorem resetWith_ctrl (c : Config) : (resetWith c).ctrl = 0#8 := rfl
@[simp] theorem resetWith_stdin (c : Config) : (resetWith c).stdin = [] := rfl
@[simp] theorem resetWith_stdinPos (c : Config) : (resetWith c).stdinPos = 0 := rfl
@[simp] theorem resetWith_stdout (c : Config) : (resetWith c).stdout = [] := rfl
@[simp] theorem resetWith_stderr (c : Config) : (resetWith c).stderr = [] := rfl
@[simp] theorem resetWith_diaglog (c : Config) : (resetWith c).diaglog = [] := rfl
@[simp] theorem resetWith_frames (c : Config) : (resetWith c).frames = [] := rfl
@[simp] theorem resetWith_stage (c : Config) : (resetWith c).stage = .constructed := rfl
@[simp] theorem resetWith_config (c : Config) : (resetWith c).config = c := rfl

/-- The register file after reset: `REG_RESET`, but for the hard-wired register. -/
@[simp] theorem resetWith_reg (c : Config) (r : RegIdx) : (resetWith c).reg r = if r = 0#5 then 0#16 else c.regReset := by
  unfold State.reg resetWith
  by_cases h : r = 0#5
  · simp [h]
  · have hn : (0 : Nat) ≠ r.toNat := fun e => h (BitVec.eq_of_toNat_eq e.symm)
    simp [h, Vector.getElem_set_ne _ _ hn]

@[simp] theorem resetWith_zeroCell (c : Config) : (resetWith c).regs[0] = 0#16 := by simp [resetWith]

/-! ### The register file -/

@[simp] theorem reg_zero : s.reg 0#5 = 0#16 := by simp [State.reg]

theorem setReg_zero (v : Word) : s.setReg 0#5 v = s := by simp [State.setReg]

theorem reg_setReg_self (i : RegIdx) (v : Word) (h : i ≠ 0#5) : (s.setReg i v).reg i = v := by
  simp [State.reg, State.setReg, h]

theorem reg_setReg_of_ne (i r : RegIdx) (v : Word) (h : r ≠ i) : (s.setReg i v).reg r = s.reg r := by
  have hn : i.toNat ≠ r.toNat := fun e => h (BitVec.eq_of_toNat_eq e.symm)
  unfold State.reg State.setReg
  by_cases hr : r = 0#5
  · simp [hr]
  · by_cases hi : i = 0#5
    · simp [hi]
    · simp [hr, hi, Vector.getElem_set_ne _ _ hn]

/-- The read after write of R11 and R12 in one line. -/
theorem reg_setReg (i r : RegIdx) (v : Word) :
    (s.setReg i v).reg r = if r = 0#5 then 0#16 else if r = i then v else s.reg r := by
  by_cases hr : r = 0#5
  · subst hr; simp
  · by_cases hi : r = i
    · subst hi; simp [hr, reg_setReg_self]
    · simp [hr, hi, reg_setReg_of_ne]

@[simp] theorem writeBack_reg (i r : RegIdx) (v : Word) : (s.writeBack i v).reg r = (s.setReg i v).reg r := rfl

/-- The cell of register 0 is never written. -/
@[simp] theorem setReg_zeroCell (i : RegIdx) (v : Word) : (s.setReg i v).regs[0] = s.regs[0] := by
  unfold State.setReg
  by_cases h : i = 0#5
  · simp [h]
  · have hn : i.toNat ≠ 0 := fun e => h (BitVec.eq_of_toNat_eq e)
    simp [h, Vector.getElem_set_ne _ _ hn]

@[simp] theorem writeBack_zeroCell (i : RegIdx) (v : Word) : (s.writeBack i v).regs[0] = s.regs[0] :=
  setReg_zeroCell s i v

end Sys2Proof.Machine.State
end

