-- ==== Sys2Proof/Laws/Ops.lean ====
section
/-! SUPPORT. One lemma per shared operation that says everything it can do, and the inversion of `exec` and `step`: what a data access
can do to the state is `Access`, and every instruction is one access followed by at most one register write, one PC update
and at most the halt (40_engine_step.md R90, R97). -/

namespace Sys2Proof.Machine

/-- Everything one access of the memory controller can do to the state (20_memory.md R44 to R48). -/
inductive Access (s : State) : State → Prop where
  | nothing : Access s s
  | consume (h : s.stdinPos < s.stdin.length) : Access s { s with stdinPos := s.stdinPos + 1 }
  | violation (a : Addr) (k : Permission) (w : Width) : Access s (s.violation a k w)
  | stdout (b : Byte) : Access s (s.emitStdout b)
  | stderr (b : Byte) : Access s (s.emitStderr b)
  | byte (a : Nat) (b : Byte) (h : a < 0x7000) : Access s (s.storeByte a b)
  | word (a : Nat) (b b' : Byte) (h : a + 1 < 0x7000) : Access s ((s.storeByte a b).storeByte (a + 1) b')

/-! ### The map -/

theorem lt_of_region_ram {a : Addr} (h : region a = .ram) : a.toNat < 0x7000 := by
  unfold region at h
  split_ifs at h with h1
  exact h1

theorem region_ram {a : Addr} (h : a.toNat < 0x7000) : region a = .ram := by
  simp [region, h]

theorem region_rom {a : Addr} (h1 : 0x8000 ≤ a.toNat) (h2 : a.toNat ≤ 0xFFFF) : region a = .rom := by
  unfold region
  repeat rw [if_neg (by omega)]
  rw [if_pos ⟨h1, h2⟩]

theorem bounds_of_region_rom {a : Addr} (h : region a = .rom) : 0x8000 ≤ a.toNat ∧ a.toNat ≤ 0xFFFF := by
  unfold region at h
  split_ifs at h with _ _ _ _ _ _ h7
  exact h7

theorem alignDown_le (a : Addr) (n : Nat) : alignDown a n ≤ a.toNat := Nat.sub_le _ _

/-- A word access whose address is RAM stays inside RAM (20_memory.md R33). -/
theorem alignDown_two_ram {a : Addr} (h : region a = .ram) : alignDown a 2 + 1 < 0x7000 := by
  have := lt_of_region_ram h
  unfold alignDown
  omega

/-! ### The five accesses -/

theorem takeStdin_access (s : State) : Access s s.takeStdin.2 := by
  unfold State.takeStdin
  split
  · rename_i b hb
    exact .consume (List.getElem?_eq_some_iff.mp hb).1
  · exact .nothing

theorem readByte_access (a : Addr) (s : State) : Access s (readByte a s).2 := by
  unfold readByte
  cases region a <;> first | exact .nothing | exact takeStdin_access s | exact .violation ..

theorem writeByte_access (a : Addr) (v : Byte) (s : State) : Access s (writeByte a v s).1 := by
  unfold writeByte
  cases h : region a <;>
    first
      | exact .nothing
      | exact .stdout v
      | exact .stderr v
      | exact .byte _ v (lt_of_region_ram h)
      | exact .violation ..

theorem readWord_access (a : Addr) (s : State) : Access s (readWord a s).2 := by
  unfold readWord
  cases region a <;> first | exact .nothing | exact .violation ..

theorem writeWord_access (a : Addr) (v : Word) (s : State) : Access s (writeWord a v s) := by
  unfold writeWord
  cases h : region a <;> first | exact .word _ _ _ (alignDown_two_ram h) | exact .violation ..

/-- A fetch returns the word and leaves the state, or is degraded: the word 0 and one diagnostic (20_memory.md R48). -/
theorem readInstruction_cases (a : Addr) (s : State) :
    (region a = .rom ∧ (readInstruction a s).2 = s) ∨
      (region a ≠ .rom ∧ readInstruction a s = (0#32, s.violation a .execute .instruction)) := by
  unfold readInstruction
  cases h : region a <;> simp

/-! ### Inversion of exec and step -/

/-- The end of an instruction: a register write (to register 0 where there is none), the PC update, and the halt. -/
def ended (t : State) (r : RegIdx) (v : Word) (p : Addr) (h : Bool) : State :=
  let u := (t.setReg r v).setPc p
  if h then u.halt else u

/-- Every instruction answers a next state: one access, then its end. -/
theorem exec_inversion (i : Instr) (s : State) :
    ∃ t r v p h, Access s t ∧ exec i s = .next (ended t r v p h) := by
  cases i with
  | j a b imm => exact ⟨s, 0#5, 0#16, _, false, .nothing, by rw [ended, State.setReg_zero]; rfl⟩
  | jal a b imm => exact ⟨s, _, _, _, false, .nothing, rfl⟩
  | beq a b imm =>
    refine ⟨s, 0#5, 0#16, if equalCond (s.reg a) (s.reg b) then branchTarget s imm else s.pc + 4#32, false, .nothing, ?_⟩
    rw [ended, State.setReg_zero]
    simp only [exec, execBeq, branchIf]
    split <;> rfl
  | bne a b imm =>
    refine ⟨s, 0#5, 0#16, if !equalCond (s.reg a) (s.reg b) then branchTarget s imm else s.pc + 4#32, false, .nothing, ?_⟩
    rw [ended, State.setReg_zero]
    simp only [exec, execBne, branchIf]
    split <;> rfl
  | addi a b imm => exact ⟨s, _, _, _, false, .nothing, rfl⟩
  | ori a b imm => exact ⟨s, _, _, _, false, .nothing, rfl⟩
  | lw a b imm => exact ⟨_, _, _, _, false, readWord_access _ s, rfl⟩
  | lbu a b imm => exact ⟨_, _, _, _, false, readByte_access _ s, rfl⟩
  | sb a b imm =>
    let r := writeByte (effectiveAddress s a imm) ((s.reg b).extractLsb' 0 8) s
    exact ⟨r.1, 0#5, 0#16, r.1.pc + 4#32, r.2, writeByte_access _ _ s, by rw [ended, State.setReg_zero]; rfl⟩
  | sw a b imm =>
    exact ⟨_, 0#5, 0#16, _, false, writeWord_access (effectiveAddress s a imm) (s.reg b) s, by
      rw [ended, State.setReg_zero]; rfl⟩
  | sll a b c sh => exact ⟨s, _, _, _, false, .nothing, rfl⟩
  | srl a b c sh => exact ⟨s, _, _, _, false, .nothing, rfl⟩
  | sra a b c sh => exact ⟨s, _, _, _, false, .nothing, rfl⟩
  | jr a b c sh => exact ⟨s, 0#5, 0#16, _, false, .nothing, by rw [ended, State.setReg_zero]; rfl⟩
  | add a b c sh => exact ⟨s, _, _, _, false, .nothing, rfl⟩
  | sub a b c sh => exact ⟨s, _, _, _, false, .nothing, rfl⟩
  | and a b c sh => exact ⟨s, _, _, _, false, .nothing, rfl⟩
  | or a b c sh => exact ⟨s, _, _, _, false, .nothing, rfl⟩
  | nor a b c sh => exact ⟨s, _, _, _, false, .nothing, rfl⟩
  | slt a b c sh => exact ⟨s, _, _, _, false, .nothing, rfl⟩

/-- What runs after the fetch: an instruction, or the report of an unknown encoding and the default PC rule. -/
theorem runDecoded_inversion (d : Decoded) (w : IWord) (s : State) :
    (∃ i, d = .instr i ∧ runDecoded d w s = exec i s) ∨
      (∃ op, d = .unknownOpcode op ∧ runDecoded d w s = .next (s.report (.unknownOpcode op s.pc w)).advancePc) ∨
      (∃ fn, d = .unknownFunction fn ∧ runDecoded d w s = .next (s.report (.unknownFunction fn s.pc w)).advancePc) := by
  cases d with
  | instr i => exact .inl ⟨i, rfl, rfl⟩
  | unknownOpcode op => exact .inr (.inl ⟨op, rfl, rfl⟩)
  | unknownFunction fn => exact .inr (.inr ⟨fn, rfl, rfl⟩)

/-- The five things a step can be. -/
theorem step_cases (s : State) :
    (s.halted = true ∧ step s = .next s) ∨
      (s.halted = false ∧ (s.stage = .constructed ∨ s.stage = .mounted) ∧ step s = .next s) ∨
      (s.halted = false ∧ s.stage = .betweenIterations ∧ step s = .next (beginIteration s)) ∨
      (s.halted = false ∧ s.stage = .running ∧ s.pc = 0#32 ∧ step s = .next (endPhase s)) ∨
      (s.halted = false ∧ s.stage = .running ∧ s.pc ≠ 0#32 ∧ step s = instructionStep s) := by
  unfold step engineStep
  by_cases hh : s.halted = true
  · simp [hh]
  · cases hs : s.stage
    · simp [hh]
    · simp [hh]
    · by_cases hp : s.pc = 0#32 <;> simp [hh, hp]
    · simp [hh]

end Sys2Proof.Machine
end

