-- ==== Sys2Proof/Laws/Encoding.lean ====
section
/-! SUPPORT. What each slice of an encoded word is (30_encoding.md R71, R72, R74), the converse, the byte order of a word, and how the
selection reads an encoded word. -/

namespace Sys2Proof

/-! ### Slices of encoded words -/

@[simp] theorem opcodeField_encI (op : Code) (a b : RegIdx) (imm : Imm) : opcodeField (encI op a b imm) = op := by
  simp only [opcodeField, encI]
  rw [BitVec.extractLsb'_append_eq_of_le (by omega),
    BitVec.extractLsb'_append_eq_of_le (by omega),
    BitVec.extractLsb'_append_eq_of_le (by omega)]
  simp

@[simp] theorem regAField_encI (op : Code) (a b : RegIdx) (imm : Imm) : regAField (encI op a b imm) = a := by
  simp only [regAField, encI]
  rw [BitVec.extractLsb'_append_eq_of_le (by omega),
    BitVec.extractLsb'_append_eq_of_le (by omega),
    BitVec.extractLsb'_append_eq_of_add_le (by omega)]
  simp

@[simp] theorem regBField_encI (op : Code) (a b : RegIdx) (imm : Imm) : regBField (encI op a b imm) = b := by
  simp only [regBField, encI]
  rw [BitVec.extractLsb'_append_eq_of_le (by omega),
    BitVec.extractLsb'_append_eq_of_add_le (by omega)]
  simp

@[simp] theorem immField_encI (op : Code) (a b : RegIdx) (imm : Imm) : immField (encI op a b imm) = imm := by
  simp only [immField, encI]
  rw [BitVec.extractLsb'_append_eq_of_add_le (by omega)]
  simp

@[simp] theorem opcodeField_encR (a b c : RegIdx) (sh : Shamt) (fn : Code) : opcodeField (encR a b c sh fn) = rSentinel := by
  simp only [opcodeField, encR]
  rw [BitVec.extractLsb'_append_eq_of_le (by omega),
    BitVec.extractLsb'_append_eq_of_le (by omega),
    BitVec.extractLsb'_append_eq_of_le (by omega),
    BitVec.extractLsb'_append_eq_of_le (by omega),
    BitVec.extractLsb'_append_eq_of_le (by omega)]
  simp

@[simp] theorem regAField_encR (a b c : RegIdx) (sh : Shamt) (fn : Code) : regAField (encR a b c sh fn) = a := by
  simp only [regAField, encR]
  rw [BitVec.extractLsb'_append_eq_of_le (by omega),
    BitVec.extractLsb'_append_eq_of_le (by omega),
    BitVec.extractLsb'_append_eq_of_le (by omega),
    BitVec.extractLsb'_append_eq_of_le (by omega),
    BitVec.extractLsb'_append_eq_of_add_le (by omega)]
  simp

@[simp] theorem regBField_encR (a b c : RegIdx) (sh : Shamt) (fn : Code) : regBField (encR a b c sh fn) = b := by
  simp only [regBField, encR]
  rw [BitVec.extractLsb'_append_eq_of_le (by omega),
    BitVec.extractLsb'_append_eq_of_le (by omega),
    BitVec.extractLsb'_append_eq_of_le (by omega),
    BitVec.extractLsb'_append_eq_of_add_le (by omega)]
  simp

@[simp] theorem regCField_encR (a b c : RegIdx) (sh : Shamt) (fn : Code) : regCField (encR a b c sh fn) = c := by
  simp only [regCField, encR]
  rw [BitVec.extractLsb'_append_eq_of_le (by omega),
    BitVec.extractLsb'_append_eq_of_le (by omega),
    BitVec.extractLsb'_append_eq_of_add_le (by omega)]
  simp

@[simp] theorem shiftField_encR (a b c : RegIdx) (sh : Shamt) (fn : Code) : shiftField (encR a b c sh fn) = sh := by
  simp only [shiftField, encR]
  rw [BitVec.extractLsb'_append_eq_of_le (by omega),
    BitVec.extractLsb'_append_eq_of_add_le (by omega)]
  simp

@[simp] theorem functionField_encR (a b c : RegIdx) (sh : Shamt) (fn : Code) : functionField (encR a b c sh fn) = fn := by
  simp only [functionField, encR]
  rw [BitVec.extractLsb'_append_eq_of_add_le (by omega)]
  simp

/-! ### A word is the encoding of its slices -/

/-- Adjacent slices glue to one. -/
theorem glue_slices (w : IWord) {k l m n : Nat} (h : k = l + n) :
    w.extractLsb' k m ++ w.extractLsb' l n = w.extractLsb' l (m + n) := by
  subst h
  apply BitVec.eq_of_getLsbD_eq
  intro i hi
  simp only [BitVec.getLsbD_append, BitVec.getLsbD_extractLsb']
  split
  · rename_i hlt
    simp [hlt, hi]
  · rename_i hge
    have h1 : i - n < m := by omega
    simp [h1, hi, show l + n + (i - n) = l + i by omega]

theorem encI_fields (w : IWord) : encI (opcodeField w) (regAField w) (regBField w) (immField w) = w := by
  simp only [encI, opcodeField, regAField, regBField, immField]
  rw [glue_slices w (by omega), glue_slices w (by omega), glue_slices w (by omega)]
  simp

theorem encR_fields (w : IWord) (h : opcodeField w = rSentinel) :
    encR (regAField w) (regBField w) (regCField w) (shiftField w) (functionField w) = w := by
  rw [encR, ← h]
  simp only [opcodeField, regAField, regBField, regCField, shiftField, functionField]
  rw [glue_slices w (by omega), glue_slices w (by omega), glue_slices w (by omega), glue_slices w (by omega),
    glue_slices w (by omega)]
  simp

/-! ### Byte order -/

/-- A word laid out in memory order reads back as the word. -/
theorem wordOfBytes_bytesOfWord (w : IWord) :
    wordOfBytes (w.extractLsb' 24 8) (w.extractLsb' 16 8) (w.extractLsb' 8 8) (w.extractLsb' 0 8) = w := by
  simp only [wordOfBytes]
  rw [glue_slices w (by omega), glue_slices w (by omega), glue_slices w (by omega)]
  simp

@[simp] theorem bytesOfWord_length (w : IWord) : (bytesOfWord w).length = 4 := rfl

theorem decodeBytes_bytesOfWord (w : IWord) : decodeBytes (bytesOfWord w) = some (decode w, []) := by
  simp [decodeBytes, bytesOfWord, wordOfBytes_bytesOfWord]

/-! ### The two formats -/

/-- A word whose opcode field is the sentinel is R-type, any other is I-type (R73). -/
theorem fieldsOf_encR (a b c : RegIdx) (sh : Shamt) (fn : Code) : fieldsOf (encR a b c sh fn) = .rType a b c sh fn := by
  simp [fieldsOf, classify]

theorem fieldsOf_encI {op : Code} (h : op ≠ rSentinel) (a b : RegIdx) (imm : Imm) :
    fieldsOf (encI op a b imm) = .iType op a b imm := by
  simp [fieldsOf, classify, h]

end Sys2Proof
end

