-- ==== Sys2Proof/Laws/PerInstr.lean ====
section
/-! SUPPORT. Statements made of every instruction, one lemma per constructor. -/

/-- The encoded word of an instruction is of the instruction's own format under this machine's OPMAP (30_encoding.md R73, R77). -/
def Sys2Proof.Laws.EncodesInFormat.Statement (i : Sys2Proof.Instr) : Prop :=
  Sys2Proof.classify (Sys2Proof.encode i) = i.format

namespace Sys2Proof.Laws.EncodesInFormat

open Sys2Proof

theorem classify_encI {op : Code} (h : op ≠ rSentinel) (a b : RegIdx) (imm : Imm) : classify (encI op a b imm) = .iType := by
  simp [classify, h]

theorem classify_encR (a b c : RegIdx) (sh : Shamt) (fn : Code) : classify (encR a b c sh fn) = .rType := by
  simp [classify]

theorem j (a b : RegIdx) (imm : Imm) : Statement (.j a b imm) := classify_encI (by decide) a b imm
theorem jal (a b : RegIdx) (imm : Imm) : Statement (.jal a b imm) := classify_encI (by decide) a b imm
theorem beq (a b : RegIdx) (imm : Imm) : Statement (.beq a b imm) := classify_encI (by decide) a b imm
theorem bne (a b : RegIdx) (imm : Imm) : Statement (.bne a b imm) := classify_encI (by decide) a b imm
theorem addi (a b : RegIdx) (imm : Imm) : Statement (.addi a b imm) := classify_encI (by decide) a b imm
theorem ori (a b : RegIdx) (imm : Imm) : Statement (.ori a b imm) := classify_encI (by decide) a b imm
theorem lw (a b : RegIdx) (imm : Imm) : Statement (.lw a b imm) := classify_encI (by decide) a b imm
theorem lbu (a b : RegIdx) (imm : Imm) : Statement (.lbu a b imm) := classify_encI (by decide) a b imm
theorem sb (a b : RegIdx) (imm : Imm) : Statement (.sb a b imm) := classify_encI (by decide) a b imm
theorem sw (a b : RegIdx) (imm : Imm) : Statement (.sw a b imm) := classify_encI (by decide) a b imm
theorem sll (a b c : RegIdx) (sh : Shamt) : Statement (.sll a b c sh) := classify_encR a b c sh _
theorem srl (a b c : RegIdx) (sh : Shamt) : Statement (.srl a b c sh) := classify_encR a b c sh _
theorem sra (a b c : RegIdx) (sh : Shamt) : Statement (.sra a b c sh) := classify_encR a b c sh _
theorem jr (a b c : RegIdx) (sh : Shamt) : Statement (.jr a b c sh) := classify_encR a b c sh _
theorem add (a b c : RegIdx) (sh : Shamt) : Statement (.add a b c sh) := classify_encR a b c sh _
theorem sub (a b c : RegIdx) (sh : Shamt) : Statement (.sub a b c sh) := classify_encR a b c sh _
theorem and (a b c : RegIdx) (sh : Shamt) : Statement (.and a b c sh) := classify_encR a b c sh _
theorem or (a b c : RegIdx) (sh : Shamt) : Statement (.or a b c sh) := classify_encR a b c sh _
theorem nor (a b c : RegIdx) (sh : Shamt) : Statement (.nor a b c sh) := classify_encR a b c sh _
theorem slt (a b c : RegIdx) (sh : Shamt) : Statement (.slt a b c sh) := classify_encR a b c sh _

end Sys2Proof.Laws.EncodesInFormat
end

