-- ==== Sys2Proof/Machine/Session.lean ====
section
/-! DEFINITION. The host's side of the core (70_reset_and_hazards.md): mounting a ROM image, the start, the controller, the input
stream, the halt request, snapshot and restore. Each acts at an instruction boundary or between Loop steps (R188). -/

namespace Sys2Proof.Machine

/-! ### The ROM image (R172) -/

/-- `ROM_SIZE` (00_scope.md R4). -/
def romSize : Nat := 32768
/-- `ROM_BASE` (00_scope.md R4). -/
def romBase : Nat := 0x8000
/-- The first address above the RAM (00_scope.md R4, `RAM_END`). -/
def ramEnd : Nat := 0x7000
/-- `HDR_MAGIC`: where the magic stands. -/
def hdrMagic : Nat := 0x0000
/-- The magic itself, ASCII "SLUG" (00_scope.md R4; R172). -/
def magic : List Byte := [0x53#8, 0x4C#8, 0x55#8, 0x47#8]
/-- The image carries the magic. The core never asks (R172; decision D15 (c) of the spec, log entry 23): who validates an image does. -/
def hasMagic (rom : List Byte) : Bool := (rom.drop hdrMagic).take 4 == magic
/-- `HDR_SETUP`. -/
def hdrSetup : Nat := 0x01E0
/-- `HDR_LOOP`. -/
def hdrLoop : Nat := 0x01E4
/-- `HDR_RSRC`. -/
def hdrRelocSource : Nat := 0x01E8
/-- `HDR_RDST`. -/
def hdrRelocDest : Nat := 0x01EC
/-- `HDR_RSIZE`. -/
def hdrRelocSize : Nat := 0x01F0

/-- Byte `i` of a block; 0 past its end (never asked for within the bounds the callers check). -/
def byteAt (bytes : List Byte) (i : Nat) : Byte := bytes.getD i 0

/-- The big-endian 32-bit value at an offset of a block (R172). -/
def be32At (bytes : List Byte) (o : Nat) : Addr :=
  wordOfBytes (byteAt bytes o) (byteAt bytes (o + 1)) (byteAt bytes (o + 2)) (byteAt bytes (o + 3))

/-- The relocation block lies inside the image and inside the RAM (R176; decision D15 of the spec). -/
def relocationFits (rom : List Byte) : Bool :=
  decide ((be32At rom hdrRelocSource).toNat + (be32At rom hdrRelocSize).toNat ≤ romSize) &&
    decide ((be32At rom hdrRelocDest).toNat + (be32At rom hdrRelocSize).toNat ≤ ramEnd)

/-- The relocation block: the bytes of the image from the header's source offset on, sized by the header (R175). -/
def relocationBlock (rom : List Byte) : List Byte :=
  (rom.drop (be32At rom hdrRelocSource).toNat).take (be32At rom hdrRelocSize).toNat

/-- The two copies of a mount, in their order (R173, R175). -/
def mountMemory (rom : List Byte) (m : Memory) : Memory :=
  (m.writeBlock romBase rom).writeBlock (be32At rom hdrRelocDest).toNat (relocationBlock rom)

/-- A mount takes a new session to its second stage and leaves a later stage as it is (R170, R177). -/
def Stage.afterMount : Stage → Stage
  | .constructed => .mounted
  | .mounted => .mounted
  | .running => .running
  | .betweenIterations => .betweenIterations

/-- `mount_rom(rom)`: the copies and the header latches (R171 to R177). -/
def mountRom (rom : List Byte) (s : State) : Result :=
  if rom.length ≠ romSize then .refused .romImageSize
  else if !relocationFits rom then .refused .relocationOutOfBounds
  else
    .next { s with
      mem := mountMemory rom s.mem
      setupEntry := be32At rom hdrSetup
      loopEntry := be32At rom hdrLoop
      stage := s.stage.afterMount }

/-- The start of the Setup phase, once, after the mount (R170; 40_engine_step.md R100, R101). -/
def start (s : State) : Result :=
  match s.stage with
  | .mounted => .next { s.setPc s.setupEntry with stage := .running }
  | .constructed | .running | .betweenIterations => .refused .startOutOfOrder

/-! ### Inputs -/

/-- The input collaborator sets the controller value (10_state.md R25; 20_memory.md R58). -/
def driveCtrl (v : Byte) (s : State) : Result := .next { s with ctrl := v }

/-- The host supplies further input bytes (R188; 20_memory.md R39). -/
def supplyStdin (bytes : List Byte) (s : State) : Result := .next { s with stdin := s.stdin ++ bytes }

/-- The host's halt request: `halted <- 1` and nothing else (40_engine_step.md R107; decision D24). -/
def requestHalt (s : State) : Result := .next s.halt

/-! ### The snapshot (R185 to R187) -/

/-- The bytes of a 16-bit value, most significant first. -/
def bytesOfHalf (v : Word) : List Byte := [v.extractLsb' 8 8, v.extractLsb' 0 8]

/-- The registers in index order. -/
def registerBytes (s : State) : List Byte :=
  (List.range 32).flatMap fun i => bytesOfHalf (s.reg (BitVec.ofNat 5 i))

/-- `snapshot()` (R185; byte order of pc and registers by decision D18 of the spec). -/
def snapshot (s : State) : List Byte :=
  bytesOfWord s.pc ++ registerBytes s ++ s.mem.window 0 memSize

/-- 4 + 64 + 65536. -/
def snapshotSize : Nat := 65604

/-- Register `i` of a blob: bytes 4 + 2i and 5 + 2i; the two bytes of register 0 are ignored (R186). -/
def blobRegister (blob : List Byte) (i : Nat) : Word :=
  if i = 0 then 0#16 else byteAt blob (4 + 2 * i) ++ byteAt blob (5 + 2 * i)

/-- `restore(bytes)` (R186): pc, registers and all storage, directly; nothing else. -/
def restore (blob : List Byte) (s : State) : Result :=
  if blob.length ≠ snapshotSize then .refused .snapshotGeometry
  else
    .next { s.setPc (be32At blob 0) with
      regs := Vector.ofFn fun i => blobRegister blob i.val
      mem := Memory.ofBytes 0 (blob.drop 68) }

/-! ### All that can happen to the core -/

/-- One interaction of R188 that changes the core's state, or one step of the engine. -/
inductive Event where
  | step
  | mountRom (rom : List Byte)
  | start
  | driveCtrl (v : Byte)
  | supplyStdin (bytes : List Byte)
  | requestHalt
  | restore (blob : List Byte)
  deriving DecidableEq, Repr

/-- The transition of an event. -/
def happen (e : Event) (s : State) : Result :=
  match e with
  | .step => step s
  | .mountRom rom => mountRom rom s
  | .start => start s
  | .driveCtrl v => driveCtrl v s
  | .supplyStdin bytes => supplyStdin bytes s
  | .requestHalt => requestHalt s
  | .restore blob => restore blob s

/-- A history of the core: events in order, ending at the first refusal. -/
def history : List Event → State → Result
  | [], s => .next s
  | e :: es, s =>
    match happen e s with
    | .next t => history es t
    | .fault r => .fault r
    | .refused r => .refused r

end Sys2Proof.Machine
end

