-- ==== Sys2Proof/Laws/Session.lean ====
section
/-! SUPPORT. What each action of the host can do (70_reset_and_hazards.md R171 to R188): one inversion lemma per action that can be
refused, and what a mounted memory reads as. -/

namespace Sys2Proof.Machine

variable {rom blob : List Byte} {s t : State}

/-- The bounds of R176 as numbers. -/
theorem relocationFits_iff :
    relocationFits rom = true ↔
      (be32At rom 0x1E8).toNat + (be32At rom 0x1F0).toNat ≤ 32768 ∧
        (be32At rom 0x1EC).toNat + (be32At rom 0x1F0).toNat ≤ 0x7000 := by
  simp only [relocationFits, Bool.and_eq_true, decide_eq_true_eq]
  rfl

/-- A mount that is not refused. -/
theorem mountRom_next (h : mountRom rom s = .next t) :
    rom.length = 32768 ∧ relocationFits rom = true ∧
      t = { s with
        mem := mountMemory rom s.mem
        setupEntry := be32At rom 0x1E0
        loopEntry := be32At rom 0x1E4
        stage := s.stage.afterMount } := by
  simp only [mountRom] at h
  split at h
  · nomatch h
  · rename_i hl
    split at h
    · nomatch h
    · rename_i hf
      simp only [Host.Outcome.next.injEq] at h
      exact ⟨by simpa [romSize] using hl, by simpa using hf, h.symm⟩

/-- A mount within the bounds is not refused. -/
theorem mountRom_of_fits (hl : rom.length = 32768) (hf : relocationFits rom = true) :
    mountRom rom s =
      .next { s with
        mem := mountMemory rom s.mem
        setupEntry := be32At rom 0x1E0
        loopEntry := be32At rom 0x1E4
        stage := s.stage.afterMount } := by
  rw [mountRom, if_neg (by rw [hl]; exact fun h => h rfl), if_neg (by simp [hf])]
  rfl

/-- A start that is not refused. -/
theorem start_next (h : start s = .next t) : s.stage = .mounted ∧ t = { s.setPc s.setupEntry with stage := .running } := by
  simp only [start] at h
  split at h
  · rename_i hs
    simp only [Host.Outcome.next.injEq] at h
    exact ⟨hs, h.symm⟩
  all_goals nomatch h

/-- A restore that is not refused. -/
theorem restore_next (h : restore blob s = .next t) :
    blob.length = 65604 ∧
      t = { s.setPc (be32At blob 0) with
        regs := Vector.ofFn fun i => blobRegister blob i.val
        mem := Memory.ofBytes 0 (blob.drop 68) } := by
  simp only [restore] at h
  split at h
  · nomatch h
  · rename_i hl
    simp only [Host.Outcome.next.injEq] at h
    exact ⟨by simpa [snapshotSize] using hl, h.symm⟩

/-- A restore of a whole blob is not refused. -/
theorem restore_of_length (h : blob.length = 65604) :
    restore blob s =
      .next { s.setPc (be32At blob 0) with
        regs := Vector.ofFn fun i => blobRegister blob i.val
        mem := Memory.ofBytes 0 (blob.drop 68) } := by
  rw [restore, if_neg (by rw [h]; exact fun hn => hn rfl)]

/-- The relocation block has the header's size where it lies inside the image. -/
theorem relocationBlock_length (hl : rom.length = 32768) (hf : relocationFits rom = true) :
    (relocationBlock rom).length = (be32At rom 0x1F0).toNat := by
  have := (relocationFits_iff.mp hf).1
  change ((rom.drop (be32At rom 0x1E8).toNat).take (be32At rom 0x1F0).toNat).length = _
  simp
  omega

/-- The storage after a mount: the block over the image over what was there. -/
theorem read_mountMemory (hl : rom.length = 32768) (hf : relocationFits rom = true) (m : Memory) (x : Nat) :
    (mountMemory rom m).read x =
      if (be32At rom 0x1EC).toNat ≤ x ∧ x < (be32At rom 0x1EC).toNat + (be32At rom 0x1F0).toNat then
        rom.getD ((be32At rom 0x1E8).toNat + (x - (be32At rom 0x1EC).toNat)) 0#8
      else if 0x8000 ≤ x ∧ x < 0x10000 then rom.getD (x - 0x8000) 0#8
      else m.read x := by
  have hb := relocationBlock_length hl hf
  have h : (mountMemory rom m).read x = _ :=
    Memory.read_writeBlock (m.writeBlock 0x8000 rom) (be32At rom 0x1EC).toNat (relocationBlock rom) x
  rw [Memory.read_writeBlock m, hb, hl] at h
  refine h.trans ?_
  split
  · change ((rom.drop (be32At rom 0x1E8).toNat).take (be32At rom 0x1F0).toNat).getD _ 0#8 = _
    rw [List.getD_eq_getElem?_getD, List.getElem?_take, if_pos (by omega), List.getElem?_drop, ← List.getD_eq_getElem?_getD]
  · rfl

/-- A mount keeps the canonical form. -/
theorem wf_mountMemory {m : Memory} (hl : rom.length = 32768) (hf : relocationFits rom = true) (hm : m.wf = true) :
    (mountMemory rom m).wf = true := by
  have h1 := relocationBlock_length hl hf
  have h2 := (relocationFits_iff.mp hf).2
  have h3 : (be32At rom 0x1EC).toNat + (relocationBlock rom).length ≤ 65536 := by omega
  exact Memory.wf_writeBlock (Memory.wf_writeBlock hm (by rw [hl]; decide)) h3

/-- A snapshot has its one length. -/
@[simp] theorem snapshot_length (s : State) : (snapshot s).length = 65604 := by
  have : (registerBytes s).length = 64 := by
    simp [registerBytes, bytesOfHalf, List.length_flatMap]
  simp [snapshot, bytesOfWord, this, memSize]

end Sys2Proof.Machine
end

