-- ==== Sys2Proof/Safety.lean ====
section
/-! DEFINITION. The terms in which claims speak: the invariant of the machine, what two states share (the frames), a state about to
execute an instruction, and the guards of 93_implementation_defined.md, the states in which a decision of the spec can be observed. -/

namespace Sys2Proof.Safety

open Sys2Proof.Machine

/-! ### The invariant -/

/-- The event the spec lists and calls unreachable (30_encoding.md R83). -/
def isMismatch : Diag → Bool
  | .rTypeSentinelMismatch .. => true
  | .permissionViolation .. | .unknownOpcode .. | .unknownFunction .. => false

/-- What holds at reset and is kept by every step and every action of the host. -/
structure Inv (s : State) : Prop where
  /-- The storage is in canonical form, inside the 65536 addresses (10_state.md R24). -/
  memCanonical      : s.mem.wf = true
  /-- The cell of the hard-wired register is never written (R12). -/
  zeroCell          : s.regs[0] = 0#16
  /-- pc is an address value of the width `AW` (R5, R16). -/
  pcWidth           : s.pc.toNat < 2 ^ s.config.addrWidth.bits
  /-- The read position never passes the bytes supplied (R26, R39). -/
  readPosition      : s.stdinPos ≤ s.stdin.length
  /-- Only Loop iterations render (40_engine_step.md R102). -/
  setupHasNoFrames  : s.phase = .setup → s.frames = []
  /-- Iterations belong to the Loop phase (R102). -/
  betweenIsLoop     : s.stage = .betweenIterations → s.phase = .loop
  /-- Before the start the phase is the initial one (R101). -/
  unstartedIsSetup  : s.stage = .constructed ∨ s.stage = .mounted → s.phase = .setup
  /-- Each frame holds the whole video window (20_memory.md R57). -/
  frameSize         : ∀ f ∈ s.frames, f.pixels.length = vramSize
  /-- The sentinel mismatch is never reported (30_encoding.md R83). -/
  noMismatch        : ∀ d ∈ s.diaglog, isMismatch d = false

/-! ### Frames -/

/-- Every byte of storage outside a list of addresses reads as before. -/
def SameStorageExcept (stored : List Nat) (s t : State) : Prop :=
  ∀ a : Nat, a ∉ stored → t.mem.read a = s.mem.read a

/-- Every byte of storage reads as before. -/
def SameStorage (s t : State) : Prop := ∀ a : Nat, t.mem.read a = s.mem.read a

/-- Every register outside a list reads as before. -/
def SameRegsExcept (written : List RegIdx) (s t : State) : Prop :=
  ∀ r : RegIdx, r ∉ written → t.reg r = s.reg r

/-- What a register reads as once a value was written to it: the value, or 0 where it is the hard-wired register (R12). -/
def Written (t : State) (r : RegIdx) (v : Word) : Prop := t.reg r = if r = 0#5 then 0#16 else v

/-- Every register reads as before. -/
def SameRegs (s t : State) : Prop := ∀ r : RegIdx, t.reg r = s.reg r

/-- The engine's control state but for pc and `halted` is as before (10_state.md R21, R23), and so are the parameters. -/
def SameEngine (s t : State) : Prop :=
  t.phase = s.phase ∧ t.stage = s.stage ∧ t.setupEntry = s.setupEntry ∧ t.loopEntry = s.loopEntry ∧ t.config = s.config

/-- The input side of the ports is as before (R25, R26). -/
def SameInputs (s t : State) : Prop :=
  t.ctrl = s.ctrl ∧ t.stdin = s.stdin ∧ t.stdinPos = s.stdinPos

/-- The output streams are as before (R26). -/
def SameOutputs (s t : State) : Prop := t.stdout = s.stdout ∧ t.stderr = s.stderr

/-- The diagnostics and the frames are as before (R27). -/
def SameLogs (s t : State) : Prop := t.diaglog = s.diaglog ∧ t.frames = s.frames

/-- All but the registers and pc is as before: the frame of an instruction that makes no memory access. -/
def OnlyRegsAndPc (s t : State) : Prop :=
  SameStorage s t ∧ SameEngine s t ∧ t.halted = s.halted ∧ SameInputs s t ∧ SameOutputs s t ∧ SameLogs s t

/-- The default PC rule: pc advanced by 4 modulo 2^`AW`, where `AW` is 32 by default (40_engine_step.md R95; 10_state.md R16). -/
def Advanced (s t : State) : Prop := t.pc.toNat = (s.pc.toNat + 4) % 2 ^ s.config.addrWidth.bits

/-! ### Where an instruction is about to execute -/

/-- The preconditions of `step()` in 40_engine_step.md R91, in a phase that is being run. -/
def AtInstruction (s : State) : Prop := s.halted = false ∧ s.stage = .running ∧ s.pc ≠ 0#32

/-- The word the next fetch returns (20_memory.md R48). -/
def fetchedWord (s : State) : IWord := (readInstruction s.pc s).1

/-- The instruction about to execute; none for an unknown encoding. -/
def nextInstr (s : State) : Option Instr :=
  match decodeWith s.config.opmap (fetchedWord s) with
  | .instr i => some i
  | .unknownOpcode _ | .unknownFunction _ => none

/-- The one register an instruction may write (40_engine_step.md R90, R97); none for a store, J, JR and the branches. -/
def destination : Instr → Option RegIdx
  | .jal .. => some linkReg
  | .addi _ b _ | .ori _ b _ | .lw _ b _ | .lbu _ b _ => some b
  | .sll _ _ c _ | .srl _ _ c _ | .sra _ _ c _ | .add _ _ c _ | .sub _ _ c _ | .and _ _ c _ | .or _ _ c _ | .nor _ _ c _ | .slt _ _ c _ =>
    some c
  | .j .. | .beq .. | .bne .. | .sb .. | .sw .. | .jr .. => none

/-- The destination of the instruction about to execute, as a list: empty where it has none. -/
def writtenRegs (s : State) : List RegIdx := ((nextInstr s).bind destination).toList

/-- An encoding selects an instruction under every well-formed OPMAP (30_encoding.md R78, R79). -/
def Selects (word : Opmap → IWord) (i : Instr) : Prop := ∀ m : Opmap, m.wf = true → decodeWith m (word m) = .instr i

/-! ### The guards of 93_implementation_defined.md, Part 2 -/

/-- Base and offset of a load or store. -/
def memoryOperand : Instr → Option (RegIdx × Imm)
  | .lw a _ imm | .lbu a _ imm | .sb a _ imm | .sw a _ imm => some (a, imm)
  | .j .. | .jal .. | .beq .. | .bne .. | .addi .. | .ori .. | .sll .. | .srl .. | .sra .. | .jr .. | .add .. | .sub .. | .and ..
  | .or .. | .nor .. | .slt .. => none

/-- An address of the I/O zone 0x7000 to 0x7FFF (20_memory.md R33). -/
def inIoZone (a : Addr) : Bool := decide (0x7000 ≤ a.toNat) && decide (a.toNat ≤ 0x7FFF)

/-- The guards that can be read off one state. G13 (a cell read before it is written) is about a history, G14 is refused by
`mountRom`, G18 holds at every boundary and G19 at every render. -/
inductive Guard where
  /-- G1: a load or store above 0xFFFF. -/
  | addressAbove
  /-- G2: a fetch above 0xFFFF. -/
  | pcAbove
  /-- G3: the parameters fix OPMAP to the default. -/
  | opmapNumbers
  /-- G4: an ignored field is not zero. -/
  | ignoredFieldSet
  /-- G5: a taken branch. -/
  | branchTaken
  /-- G6: a fetch from RAM. -/
  | fetchFromRam
  /-- G7: a fetch from the I/O zone. -/
  | fetchFromIoZone
  /-- G8: a word access in the I/O zone. -/
  | wordInIoZone
  /-- G9: a shift count of 16 or more. -/
  | longShift
  /-- G10: a link value cut to 16 bits. -/
  | linkCut
  /-- G11: the pc of a halted state. -/
  | haltedPc
  /-- G12: an entry address of 0. -/
  | emptyPhase
  /-- G15: a read of the exhausted input stream. -/
  | inputExhausted
  /-- G16: a load whose access is degraded. -/
  | degradedLoad
  /-- G17: a read of the controller. -/
  | controllerRead
  deriving DecidableEq, Repr

/-- A predicate on the instruction about to execute, false where there is none. -/
def ofNext (s : State) (p : Instr → Bool) : Bool :=
  match nextInstr s with
  | some i => p i
  | none => false

/-- The guard's predicate on the state before the step. -/
def Guard.holds (g : Guard) (s : State) : Bool :=
  match g with
  | .addressAbove => ofNext s fun i =>
      match memoryOperand i with
      | some (a, imm) => decide (0xFFFF < (addressSum s a imm).toNat)
      | none => false
  | .pcAbove => decide (0xFFFF < s.pc.toNat)
  | .opmapNumbers => s.config.opmap == opmap
  | .ignoredFieldSet => ofNext s fun i => !i.wellFormed
  | .branchTaken => ofNext s fun i =>
      match i with
      | .beq a b _ => equalCond (s.reg a) (s.reg b)
      | .bne a b _ => !equalCond (s.reg a) (s.reg b)
      | _ => false
  | .fetchFromRam => decide (0 < s.pc.toNat) && decide (s.pc.toNat < 0x7000)
  | .fetchFromIoZone => inIoZone s.pc
  | .wordInIoZone => ofNext s fun i =>
      match i with
      | .lw a _ imm | .sw a _ imm => inIoZone (effectiveAddress s a imm)
      | _ => false
  | .longShift => ofNext s fun i =>
      match i with
      | .sll _ _ _ sh | .srl _ _ _ sh | .sra _ _ _ sh => decide (16 ≤ sh.toNat)
      | _ => false
  | .linkCut => ofNext s fun i =>
      match i with
      | .jal .. => decide (0xFFFF < (s.pc + 4#32).toNat)
      | _ => false
  | .haltedPc => s.halted
  | .emptyPhase => s.setupEntry == 0#32 || s.loopEntry == 0#32
  | .inputExhausted => ofNext s fun i =>
      match i with
      | .lbu a _ imm => region (effectiveAddress s a imm) == .stdin && decide (s.stdin.length ≤ s.stdinPos)
      | _ => false
  | .degradedLoad => ofNext s fun i =>
      match i with
      | .lbu a _ imm => !granted (effectiveAddress s a imm) .read .byte
      | .lw a _ imm => !granted (effectiveAddress s a imm) .read .word
      | _ => false
  | .controllerRead => ofNext s fun i =>
      match i with
      | .lbu a _ imm => region (effectiveAddress s a imm) == .ctrl
      | _ => false

end Sys2Proof.Safety
end

