-- ==== Sys2Proof/Certificates/Slice0/Obligations.lean ====
section
/-! DEFINITION. The statements for the provers, each listed in OBLIGATIONS.json. A docstring names the rule of spec/ the statement
formalises; where a clause rests on a decision of the spec or of the model, it says so and names the log entry. -/

open Sys2Proof Sys2Proof.Machine Sys2Proof.Safety

/-! ## Encoding -/

/-- R74, R79: under every well-formed OPMAP, decoding an encoded instruction gives it back, every field at every value. That a word whose
ignored fields are set decodes at all is R81, the spec's own decision D4 (guard G4; log entry 2). -/
def Obligations.DecodeInvertsEncode : Prop :=
  ∀ m : Opmap, m.wf = true → ∀ i : Instr, decodeWith m (encodeWith m i) = .instr i

/-- R74: under every OPMAP, the word an instruction was decoded from is the encoding of that instruction: decoding drops no bit. -/
def Obligations.EncodeInvertsDecode : Prop :=
  ∀ (m : Opmap) (w : IWord) (i : Instr), decodeWith m w = .instr i → encodeWith m i = w

/-- R71, R72: the fields of a word are the digits of its value at the places the two layouts give, `opcode` never 28 in the I-type
layout. -/
def Obligations.FieldsAreTheDigitsOfTheWord : Prop :=
  ∀ w : IWord,
    match fieldsOf w with
    | .iType op a b imm =>
      op ≠ 28#6 ∧ w.toNat = op.toNat * 2 ^ 26 + a.toNat * 2 ^ 21 + b.toNat * 2 ^ 16 + imm.toNat
    | .rType a b c sh fn =>
      w.toNat = 28 * 2 ^ 26 + a.toNat * 2 ^ 21 + b.toNat * 2 ^ 16 + c.toNat * 2 ^ 11 + sh.toNat * 2 ^ 6 + fn.toNat

/-- R80, R91: a word selects no instruction exactly where its opcode is not the sentinel and is none of the ten opcodes, or it is the
sentinel and its function is none of the ten functions. That a word with a known number is never unknown, its ignored fields set or not, is
R81, the spec's own decision D4 (guard G4; log entry 2); that JR is one of the ten functions is decision D3 (log entry 21); that the ten
and ten numbers are all there are is row U12 (log entry 29). -/
def Obligations.UnknownEncodingsAreTheRest : Prop :=
  ∀ (m : Opmap) (w : IWord),
    (∀ op, decodeWith m w = .unknownOpcode op ↔ opcodeField w ≠ 28#6 ∧ op = opcodeField w ∧ op ∉ m.opcodes) ∧
    (∀ fn, decodeWith m w = .unknownFunction fn ↔ opcodeField w = 28#6 ∧ fn = functionField w ∧ fn ∉ m.functions)

/-- Words written out in 95_test_vectors.md decode to the instructions they are said to stand for, one or more of each family. Under the
default OPMAP, which is the model's presumption (log entry 1); the words of J, SRA and JR have ignored fields set, which rests on R81, the
spec's own decision D4 (guard G4; log entry 2). -/
def Obligations.WrittenOutWordsDecode : Prop :=
  decode 0x8C240000#32 = .instr (.lw 1#5 4#5 0#16) ∧
  decode 0x71455824#32 = .instr (.and 10#5 5#5 11#5 0#5) ∧
  decode 0x0BFF2083#32 = .instr (.j 31#5 31#5 0x2083#16) ∧
  decode 0x2021FFFF#32 = .instr (.addi 1#5 1#5 0xFFFF#16) ∧
  decode 0x73E21883#32 = .instr (.sra 31#5 2#5 3#5 2#5) ∧
  decode 0x703FFFC8#32 = .instr (.jr 1#5 31#5 31#5 31#5) ∧
  decode 0x65E0FFFF#32 = .unknownOpcode 25#6 ∧
  decode 0x73FF4B90#32 = .unknownFunction 16#6

/-! ## The step -/

/-- R91 with R48: where a phase is being run, the machine is not halted and pc is a non-zero address of the ROM, a step is `exec` of the
instruction that the four big-endian bytes at pc rounded down to a multiple of 4 decode to under the state's OPMAP, and nothing else. -/
def Obligations.StepRunsTheFetchedInstruction : Prop :=
  ∀ (s : State) (i : Instr), AtInstruction s → 0x8000 ≤ s.pc.toNat → s.pc.toNat ≤ 0xFFFF →
    decodeWith s.config.opmap (wordOfBytes (s.mem.read (alignDown s.pc 4)) (s.mem.read (alignDown s.pc 4 + 1))
      (s.mem.read (alignDown s.pc 4 + 2)) (s.mem.read (alignDown s.pc 4 + 3))) = .instr i →
    step s = exec i s

/-- R93 (decision D7 of the spec, log entry 16; the addresses above 0xFFFF by its decision D1, guard G2, log entry 11): a step at a pc outside
the ROM reports the violation and runs the word 0; where OPMAP gives 0 to no opcode, as the default does (log entry 1), that reports the
unknown opcode 0, advances pc by 4, and leaves the rest of the state alone. -/
def Obligations.DegradedFetchRunsTheZeroWord : Prop :=
  ∀ s : State, AtInstruction s → s.pc.toNat < 0x8000 ∨ 0xFFFF < s.pc.toNat →
    step s = runDecoded (decodeWith s.config.opmap 0#32) 0#32 (s.violation s.pc .execute .instruction) ∧
    (0#6 ∉ s.config.opmap.opcodes →
      step s = .next { s with
        pc := narrow s.config.addrWidth (s.pc + 4#32)
        diaglog := s.diaglog ++ [.permissionViolation s.pc .execute .instruction, .unknownOpcode 0#6 s.pc 0#32] })

/-- R94: an unknown encoding appends one event that names the opcode or function, pc and the word, advances pc by the default rule, and
changes nothing else of what the fetch left. -/
def Obligations.UnknownEncodingIsANoOp : Prop :=
  ∀ s : State, AtInstruction s →
    (∀ op, decodeWith s.config.opmap (fetchedWord s) = .unknownOpcode op →
      ∃ t, step s = .next t ∧ Advanced s t ∧ SameRegs s t ∧ SameStorage s t ∧ SameEngine s t ∧ t.halted = s.halted ∧
        SameInputs s t ∧ SameOutputs s t ∧ t.frames = s.frames ∧
        t.diaglog = (readInstruction s.pc s).2.diaglog ++ [.unknownOpcode op s.pc (fetchedWord s)]) ∧
    (∀ fn, decodeWith s.config.opmap (fetchedWord s) = .unknownFunction fn →
      ∃ t, step s = .next t ∧ Advanced s t ∧ SameRegs s t ∧ SameStorage s t ∧ SameEngine s t ∧ t.halted = s.halted ∧
        SameInputs s t ∧ SameOutputs s t ∧ t.frames = s.frames ∧
        t.diaglog = (readInstruction s.pc s).2.diaglog ++ [.unknownFunction fn s.pc (fetchedWord s)])

/-- First sentence of R99 (and R150): the engine never aborts; `step` is total, and so is every instruction. -/
def Obligations.EngineNeverAborts : Prop :=
  (∀ s : State, ∃ t, step s = .next t) ∧ ∀ (i : Instr) (s : State), ∃ t, exec i s = .next t

/-- R97, by the instruction about to execute: it writes at most its destination register; an SB to RAM at most the byte at its effective
address, an SW to RAM at most the two bytes of its unit, any other form no storage; and the bounds of R97 on the streams and the
diagnostics, and what no step changes. -/
def Obligations.StepChangesAtMost : Prop :=
  ∀ s t : State, AtInstruction s → step s = .next t →
    SameRegsExcept (writtenRegs s) s t ∧
    (∀ a b imm, nextInstr s = some (.sb a b imm) →
      if (effectiveAddress s a imm).toNat < 0x7000 then SameStorageExcept [(effectiveAddress s a imm).toNat] s t else SameStorage s t) ∧
    (∀ a b imm, nextInstr s = some (.sw a b imm) →
      if (effectiveAddress s a imm).toNat < 0x7000 then
        SameStorageExcept [alignDown (effectiveAddress s a imm) 2, alignDown (effectiveAddress s a imm) 2 + 1] s t
      else SameStorage s t) ∧
    ((∀ a b imm, nextInstr s ≠ some (.sb a b imm)) → (∀ a b imm, nextInstr s ≠ some (.sw a b imm)) → SameStorage s t) ∧
    (t.stdinPos = s.stdinPos ∨ t.stdinPos = s.stdinPos + 1) ∧
    (SameOutputs s t ∨ (∃ b, t.stdout = s.stdout ++ [b] ∧ t.stderr = s.stderr) ∨
      (∃ b, t.stdout = s.stdout ∧ t.stderr = s.stderr ++ [b])) ∧
    (∃ ds : List Diag, ds.length ≤ 2 ∧ t.diaglog = s.diaglog ++ ds) ∧
    SameEngine s t ∧ t.ctrl = s.ctrl ∧ t.stdin = s.stdin ∧ t.frames = s.frames

/-- R62, R43: no step writes storage outside the RAM, so none changes the code it runs nor the storage behind the ports. -/
def Obligations.StepNeverWritesOutsideRam : Prop :=
  ∀ (s t : State) (a : Nat), step s = .next t → 0x7000 ≤ a → t.mem.read a = s.mem.read a

/-- R96, R155, R42 with R126: a step that starts not halted ends halted (its result is `Halt`) exactly where the instruction it ran is an SB
whose effective address is the stop port. That an SW to the stop port does not halt is R47 and R52, the spec's own decision D8 (guard G8;
log entry 16); that the effective address is the sum with its carry under the default AW is decision D1 (guard G1; log entry 11). -/
def Obligations.OnlyTheStopPortHalts : Prop :=
  ∀ s t : State, AtInstruction s → step s = .next t →
    (stepResult t = .halts ↔ ∃ a b imm, nextInstr s = some (.sb a b imm) ∧ (effectiveAddress s a imm).toNat = 0x7200)

/-- R95: the default PC rule holds of the fifteen sequential instructions, of every unknown encoding, and of BEQ and BNE whose condition
does not hold; J, JAL, JR and a taken BEQ or BNE replace it by one update, to the target of their operand form (for BEQ, BNE, J and JAL by
decisions D5 and D6 of the spec, log entries 20 and 10). All modulo 2^AW, 32 by decision D1 (log entry 11); that the SB that halts is
among the fifteen is decision D12 (guard G11, log entry 19). -/
def Obligations.DefaultPcRule : Prop :=
  (∀ (a b : RegIdx) (imm : Imm) (s : State), ∀ i ∈ [Instr.ori a b imm, .addi a b imm, .sb a b imm, .lbu a b imm, .lw a b imm, .sw a b imm],
    ∃ t, exec i s = .next t ∧ Advanced s t) ∧
  (∀ (a b c : RegIdx) (sh : Shamt) (s : State),
    ∀ i ∈ [Instr.nor a b c sh, .or a b c sh, .sub a b c sh, .add a b c sh, .and a b c sh, .slt a b c sh, .sll a b c sh, .srl a b c sh,
      .sra a b c sh],
    ∃ t, exec i s = .next t ∧ Advanced s t) ∧
  (∀ (w : IWord) (s : State), (∀ i, decodeWith s.config.opmap w ≠ .instr i) →
    ∃ t, runDecoded (decodeWith s.config.opmap w) w s = .next t ∧ Advanced s t) ∧
  (∀ (a b : RegIdx) (imm : Imm) (s : State),
    (s.reg a ≠ s.reg b → ∃ t, exec (.beq a b imm) s = .next t ∧ Advanced s t) ∧
    (s.reg a = s.reg b → ∃ t, exec (.bne a b imm) s = .next t ∧ Advanced s t)) ∧
  (∀ (a b : RegIdx) (imm : Imm) (s : State),
    (∀ i ∈ [Instr.j a b imm, .jal a b imm], ∃ t, exec i s = .next t ∧ t.pc = narrow s.config.addrWidth (jumpTarget imm)) ∧
    (s.reg a = s.reg b → ∃ t, exec (.beq a b imm) s = .next t ∧ t.pc = narrow s.config.addrWidth (branchTarget s imm)) ∧
    (s.reg a ≠ s.reg b → ∃ t, exec (.bne a b imm) s = .next t ∧ t.pc = narrow s.config.addrWidth (branchTarget s imm))) ∧
  (∀ (a b c : RegIdx) (sh : Shamt) (s : State), ∃ t, exec (.jr a b c sh) s = .next t ∧ t.pc = narrow s.config.addrWidth (registerTarget s a))

/-! ## The engine's phases -/

/-- R21: the phase starts as Setup, changes only in a step that finds pc = 0 in Setup, and then to Loop, for good; such a step of a phase
being run (the model's field `stage`, log entry 7) does change it, the test being made before each fetch (R100, decision D13 of the spec,
log entry 22); no host action (the model's events, log entry 18) changes it, a restore among them, and it is not in the snapshot. -/
def Obligations.PhaseChangesOnce : Prop :=
  State.reset.phase = .setup ∧
  (∀ (e : Event) (s t : State), happen e s = .next t →
    t.phase = s.phase ∨ (e = .step ∧ s.phase = .setup ∧ s.pc = 0#32 ∧ t.phase = .loop)) ∧
  (∀ s : State, s.halted = false → s.stage = .running → s.pc = 0#32 → s.phase = .setup → ∃ t, step s = .next t ∧ t.phase = .loop) ∧
  (∀ (s : State) (p : Phase), snapshot { s with phase := p } = snapshot s)

/-- R100 to R102 (decisions D13 and D27 of the spec; the position between iterations is the model's field `stage`, log entry 7): pc = 0 ends
a phase; Setup then hands over to Loop, a Loop iteration renders one frame of the video window; the next iteration starts at loop_entry. -/
def Obligations.PhasesEndAtPcZero : Prop :=
  ∀ s : State, s.halted = false →
    (s.stage = .running → s.pc = 0#32 → s.phase = .setup →
      step s = .next { s with phase := .loop, stage := .betweenIterations }) ∧
    (s.stage = .running → s.pc = 0#32 → s.phase = .loop →
      ∃ t f, step s = .next t ∧ t = { s with frames := s.frames ++ [f], stage := .betweenIterations } ∧
        f.pixels.length = 15360 ∧ s.vramBase + 15360 ≤ 0x7000 ∧
        ∀ k : Nat, k < 15360 → f.pixels[k]? = some (s.mem.read (s.vramBase + k))) ∧
    (s.stage = .betweenIterations → step s = .next { s with pc := narrow s.config.addrWidth s.loopEntry, stage := .running })

/-- R22 and R107 (decisions D12 and D24 of the spec): a halted machine executes nothing; no step and no host action ends the halt; the host's
halt request is always taken and sets `halted` alone, pc not advanced. -/
def Obligations.HaltIsForEver : Prop :=
  (∀ s : State, s.halted = true → step s = .next s ∧ ∀ (e : Event) (t : State), happen e s = .next t → t.halted = true) ∧
  ∀ s : State, happen .requestHalt s = .next { s with halted := true } ∧ step { s with halted := true } = .next { s with halted := true }

/-! ## Reset and the invariant -/

/-- R29 (decision D14 of the spec; log entries 3 to 7 for the values the spec or the model chose): the state after reset under any
parameters, and the values of the parameters that the spec decides. -/
def Obligations.ResetState : Prop :=
  (∀ c : Config,
    (∀ r : RegIdx, (State.resetWith c).reg r = if r = 0#5 then 0#16 else c.regReset) ∧
    (∀ a : Nat, a < 65536 → (State.resetWith c).mem.read a = c.memReset) ∧
    (State.resetWith c).pc = 0#32 ∧ (State.resetWith c).phase = .setup ∧ (State.resetWith c).halted = false ∧
    (State.resetWith c).ctrl = 0#8 ∧ (State.resetWith c).stdinPos = 0 ∧ (State.resetWith c).stdout = [] ∧ (State.resetWith c).stderr = [] ∧
    (State.resetWith c).diaglog = [] ∧ (State.resetWith c).frames = [] ∧ (State.resetWith c).config = c) ∧
  State.reset = State.resetWith defaultConfig ∧ defaultConfig.regReset = 0#16 ∧ defaultConfig.memReset = 0#8 ∧
  defaultConfig.addrWidth.bits = 32 ∧ defaultConfig.brBase.offset = 0

/-- The invariant holds at reset, under any parameters. -/
def Obligations.ResetMeetsTheInvariant : Prop := Inv State.reset ∧ ∀ c : Config, Inv (State.resetWith c)

/-- Every step keeps the invariant, from every state that meets it, and no step changes the parameters. -/
def Obligations.StepKeepsTheInvariant : Prop := ∀ s t : State, Inv s → step s = .next t → Inv t ∧ t.config = s.config

/-- Every history of steps and host actions keeps the invariant, from every state that meets it, and the parameters. -/
def Obligations.HistoryKeepsTheInvariant : Prop :=
  ∀ (es : List Event) (s t : State), Inv s → history es s = .next t → Inv t ∧ t.config = s.config

/-! ## The memory controller -/

/-- R125 (decision D1 of the spec, log entry 11): the effective address is the sum of two unsigned 16-bit values modulo 2^AW; under the
default AW = 32 it is that sum, carry and all. -/
def Obligations.EffectiveAddressKeepsItsCarry : Prop :=
  ∀ (s : State) (a : RegIdx) (imm : Imm),
    (effectiveAddress s a imm).toNat = ((s.reg a).toNat + imm.toNat) % 2 ^ s.config.addrWidth.bits ∧
    (s.config.addrWidth = .bits32 →
      (effectiveAddress s a imm).toNat = (s.reg a).toNat + imm.toNat ∧ (effectiveAddress s a imm).toNat ≤ 0x1FFFE)

/-- R44 by addresses; the value of an exhausted stream is the open parameter STDIN_EOF (decision D16 of the spec, log entry 8), a given byte
where the parameters give one. And R26, R39: supplying input appends the bytes, leaves the read position and everything else, and the
first byte supplied to an exhausted stream is the next one read (the event is decision D23's and the model's form, log entry 18). -/
def Obligations.ByteReadByAddress : Prop :=
  (∀ (a : Addr) (s : State),
    if a.toNat < 0x7000 ∨ (0x8000 ≤ a.toNat ∧ a.toNat ≤ 0xFFFF) then readByte a s = (s.mem.read a.toNat, s)
    else if a.toNat = 0x7000 then readByte a s = (s.ctrl, s)
    else if a.toNat = 0x7100 then
      (∀ b, s.stdin[s.stdinPos]? = some b → readByte a s = (b, { s with stdinPos := s.stdinPos + 1 })) ∧
      (s.stdin[s.stdinPos]? = none → readByte a s = (s.stdinEof, s) ∧ ∀ b, s.config.stdinEof = some b → s.stdinEof = b)
    else readByte a s = (0#8, { s with diaglog := s.diaglog ++ [.permissionViolation a .read .byte] })) ∧
  (∀ (bytes : List Byte) (s : State), ∃ t, happen (.supplyStdin bytes) s = .next t ∧ t = { s with stdin := s.stdin ++ bytes } ∧
    (∀ k : Nat, k < s.stdin.length → t.stdin[k]? = s.stdin[k]?) ∧
    ∀ b rest, bytes = b :: rest → s.stdinPos = s.stdin.length → readByte 0x7100#32 t = (b, { t with stdinPos := s.stdinPos + 1 }))

/-- R45 by addresses: the state after it, and whether it raises the halt signal. -/
def Obligations.ByteWriteByAddress : Prop :=
  ∀ (a : Addr) (v : Byte) (s : State),
    if a.toNat < 0x7000 then writeByte a v s = ({ s with mem := s.mem.write a.toNat v }, false)
    else if a.toNat = 0x7110 then writeByte a v s = ({ s with stdout := s.stdout ++ [v] }, false)
    else if a.toNat = 0x7120 then writeByte a v s = ({ s with stderr := s.stderr ++ [v] }, false)
    else if a.toNat = 0x7200 then writeByte a v s = (s, true)
    else writeByte a v s = ({ s with diaglog := s.diaglog ++ [.permissionViolation a .write .byte] }, false)

/-- R46 and R52 by addresses (decision D8 of the spec, log entry 16): two bytes of plain storage, the lower the more significant; elsewhere,
ports included, a degraded read. -/
def Obligations.WordReadByAddress : Prop :=
  ∀ (a : Addr) (s : State),
    if a.toNat < 0x7000 ∨ (0x8000 ≤ a.toNat ∧ a.toNat ≤ 0xFFFF) then
      (readWord a s).2 = s ∧ (readWord a s).1.toNat =
        (s.mem.read (a.toNat - a.toNat % 2)).toNat * 256 + (s.mem.read (a.toNat - a.toNat % 2 + 1)).toNat
    else readWord a s = (0#16, { s with diaglog := s.diaglog ++ [.permissionViolation a .read .word] })

/-- R47 and R52 by addresses (decision D8 of the spec, log entry 16), for storage in canonical form: in RAM the two bytes of the unit take the
high and the low half, and every other byte, and the rest of the state, is as before; elsewhere one diagnostic. -/
def Obligations.WordWriteByAddress : Prop :=
  ∀ (a : Addr) (v : Word) (s : State), s.mem.wf = true →
    if a.toNat < 0x7000 then
      ∃ m, writeWord a v s = { s with mem := m } ∧ m.wf = true ∧
        (m.read (a.toNat - a.toNat % 2)).toNat = v.toNat / 256 ∧ (m.read (a.toNat - a.toNat % 2 + 1)).toNat = v.toNat % 256 ∧
        ∀ x, x ≠ a.toNat - a.toNat % 2 → x ≠ a.toNat - a.toNat % 2 + 1 → m.read x = s.mem.read x
    else writeWord a v s = { s with diaglog := s.diaglog ++ [.permissionViolation a .write .word] }

/-- R48 by addresses (decisions D7 and D8 of the spec, log entry 16): four bytes of the ROM, big-endian, at the address rounded down; elsewhere
a degraded fetch. -/
def Obligations.FetchByAddress : Prop :=
  ∀ (a : Addr) (s : State),
    if 0x8000 ≤ a.toNat ∧ a.toNat ≤ 0xFFFF then
      (readInstruction a s).2 = s ∧ (readInstruction a s).1.toNat =
        (s.mem.read (a.toNat - a.toNat % 4)).toNat * 2 ^ 24 + (s.mem.read (a.toNat - a.toNat % 4 + 1)).toNat * 2 ^ 16 +
        (s.mem.read (a.toNat - a.toNat % 4 + 2)).toNat * 2 ^ 8 + (s.mem.read (a.toNat - a.toNat % 4 + 3)).toNat
    else readInstruction a s = (0#32, { s with diaglog := s.diaglog ++ [.permissionViolation a .execute .instruction] })

/-- R51: byte accesses use the address as given; word and instruction accesses round it down, so that the addresses of one unit are
interchangeable, and no storage access reports anything for its alignment. -/
def Obligations.AccessesRoundDownToTheUnit : Prop :=
  ∀ (a : Addr) (s : State),
    (region a = .ram ∨ region a = .rom → readByte a s = (s.mem.read a.toNat, s)) ∧
    (region a = .ram → ∀ b : Byte, writeByte a b s = ({ s with mem := s.mem.write a.toNat b }, false)) ∧
    (a.toNat % 2 = 0 → (readWord (a + 1#32) s).1 = (readWord a s).1) ∧
    (a.toNat % 2 = 0 → region a = .ram ∨ region a = .rom → readWord (a + 1#32) s = readWord a s ∧ (readWord a s).2 = s) ∧
    (a.toNat % 2 = 0 → region a = .ram → ∀ v : Word, writeWord (a + 1#32) v s = writeWord a v s ∧ (writeWord a v s).diaglog = s.diaglog) ∧
    (a.toNat % 4 = 0 → ∀ k : Addr, k.toNat < 4 → (readInstruction (a + k) s).1 = (readInstruction a s).1) ∧
    (a.toNat % 4 = 0 → region a = .rom → ∀ k : Addr, k.toNat < 4 → readInstruction (a + k) s = readInstruction a s ∧
      (readInstruction a s).2 = s)

/-- R50: all widths address the same bytes, the high byte of a word lower (storage in canonical form). -/
def Obligations.WidthsShareTheirBytes : Prop :=
  (∀ (u : Addr) (v : Word) (s : State), s.mem.wf = true → u.toNat % 2 = 0 → u.toNat < 0x7000 →
    (readByte u (writeWord u v s)).1 = v.extractLsb' 8 8 ∧ (readByte (u + 1#32) (writeWord u v s)).1 = v.extractLsb' 0 8) ∧
  (∀ (u : Addr) (b1 b0 : Byte) (s : State), s.mem.wf = true → u.toNat % 2 = 0 → u.toNat < 0x7000 →
    (readWord u (writeByte (u + 1#32) b0 (writeByte u b1 s).1).1).1 = b1 ++ b0) ∧
  (∀ (u : Addr) (s : State), u.toNat % 4 = 0 → 0x8000 ≤ u.toNat → u.toNat ≤ 0xFFFF →
    (readInstruction u s).1 = (readWord u s).1 ++ (readWord (u + 2#32) s).1)

/-- R35 and R36 with R52 (decisions D7, D8 and D9 of the spec, log entry 16): each of the five accesses appends its one violation exactly where
the permission check refuses it, and then changes nothing else and reads 0. -/
def Obligations.RefusedAccessesDegrade : Prop :=
  ∀ (a : Addr) (v : Byte) (w : Word) (s : State),
    (granted a .read .byte = false → readByte a s = (0#8, s.violation a .read .byte)) ∧
    (granted a .read .word = false → readWord a s = (0#16, s.violation a .read .word)) ∧
    (granted a .execute .instruction = false → readInstruction a s = (0#32, s.violation a .execute .instruction)) ∧
    (granted a .write .byte = false → writeByte a v s = (s.violation a .write .byte, false)) ∧
    (granted a .write .word = false → writeWord a w s = s.violation a .write .word) ∧
    (granted a .read .byte = true → (readByte a s).2.diaglog = s.diaglog) ∧
    (granted a .read .word = true → (readWord a s).2.diaglog = s.diaglog) ∧
    (granted a .execute .instruction = true → (readInstruction a s).2.diaglog = s.diaglog) ∧
    (granted a .write .byte = true → (writeByte a v s).1.diaglog = s.diaglog) ∧
    (granted a .write .word = true → (writeWord a w s).diaglog = s.diaglog)

/-- R38: a byte read of the controller port gives the value of `ctrl` and has no side effect; a byte write there is a violation. That the
host drives `ctrl`, to any value and in every state, changing nothing else, is R25, R58 and R188 with decision D23 of the spec, in the
model's form of an event beside `step` (log entry 18). -/
def Obligations.ControllerPortReadsTheDrivenValue : Prop :=
  ∀ (v b : Byte) (s : State),
    (∃ t, driveCtrl v s = .next t ∧ t = { s with ctrl := v } ∧ readByte 0x7000#32 t = (v, t)) ∧
    readByte 0x7000#32 s = (s.ctrl, s) ∧
    writeByte 0x7000#32 b s = ({ s with diaglog := s.diaglog ++ [.permissionViolation 0x7000#32 .write .byte] }, false)

/-! ## Control transfer -/

/-- R112 (decisions D4 and D5 of the spec, log entries 2 and 20): J, under every well-formed OPMAP by its opcode, sets pc to four times the
immediate (modulo 2^AW, log entry 11) and changes nothing else. -/
def Obligations.JJumps : Prop :=
  ∀ (a b : RegIdx) (imm : Imm) (s : State),
    Selects (fun m => encI m.opJ a b imm) (.j a b imm) ∧
    ∃ t, exec (.j a b imm) s = .next t ∧ t.pc.toNat = imm.toNat * 4 % 2 ^ s.config.addrWidth.bits ∧ SameRegs s t ∧ OnlyRegsAndPc s t

/-- R113 (decisions D4, D5 and D11 of the spec, log entries 2, 20 and 12): JAL, under every well-formed OPMAP by its opcode, writes the low
16 bits of the old pc plus 4 to register 31, sets pc to four times the immediate, and changes nothing else. -/
def Obligations.JalLinksAndJumps : Prop :=
  ∀ (a b : RegIdx) (imm : Imm) (s : State),
    Selects (fun m => encI m.opJal a b imm) (.jal a b imm) ∧
    ∃ t, exec (.jal a b imm) s = .next t ∧ t.pc.toNat = imm.toNat * 4 % 2 ^ s.config.addrWidth.bits ∧
      (t.reg 31#5).toNat = (s.pc.toNat + 4) % 2 ^ 16 ∧
      SameRegsExcept [31#5] s t ∧ OnlyRegsAndPc s t

/-- R110 under both readings of conflict C1 (decisions D5 and D6 of the spec, log entries 20 and 10; BR_BASE is 0 by default): BEQ, under every
well-formed OPMAP by its opcode, adds BR_BASE and four times the unsigned immediate to pc if the two registers are equal, else 4, modulo
2^AW (32 by default, log entry 11), and changes nothing else. -/
def Obligations.BeqBranchesOnEqual : Prop :=
  ∀ (a b : RegIdx) (imm : Imm) (s : State),
    Selects (fun m => encI m.opBeq a b imm) (.beq a b imm) ∧
    ∃ t, exec (.beq a b imm) s = .next t ∧ SameRegs s t ∧ OnlyRegsAndPc s t ∧
      t.pc.toNat = (if s.reg a = s.reg b then s.pc.toNat + s.config.brBase.offset + imm.toNat * 4 else s.pc.toNat + 4) %
        2 ^ s.config.addrWidth.bits

/-- R111 under both readings of conflict C1 (decisions D5 and D6 of the spec, log entries 20 and 10): BNE is BEQ with the condition
inverted. -/
def Obligations.BneBranchesOnDifferent : Prop :=
  ∀ (a b : RegIdx) (imm : Imm) (s : State),
    Selects (fun m => encI m.opBne a b imm) (.bne a b imm) ∧
    ∃ t, exec (.bne a b imm) s = .next t ∧ SameRegs s t ∧ OnlyRegsAndPc s t ∧
      t.pc.toNat = (if s.reg a ≠ s.reg b then s.pc.toNat + s.config.brBase.offset + imm.toNat * 4 else s.pc.toNat + 4) %
        2 ^ s.config.addrWidth.bits

/-- R114 (decisions D3 and D4 of the spec, log entries 21 and 2): JR, under every well-formed OPMAP by its function, sets pc to the
register's value, zero-extended, and changes nothing else. -/
def Obligations.JrJumpsToTheRegister : Prop :=
  ∀ (a b c : RegIdx) (sh : Shamt) (s : State),
    Selects (fun m => encR a b c sh m.fnJr) (.jr a b c sh) ∧
    ∃ t, exec (.jr a b c sh) s = .next t ∧ t.pc.toNat = (s.reg a).toNat ∧ SameRegs s t ∧ OnlyRegsAndPc s t

/-! ## Immediate arithmetic and logic -/

/-- R121: the encoding under every well-formed OPMAP, and the effect. -/
def Obligations.AddiAddsTheImmediate : Prop :=
  ∀ (a b : RegIdx) (imm : Imm) (s : State),
    Selects (fun m => encI m.opAddi a b imm) (.addi a b imm) ∧
    ∃ t v, exec (.addi a b imm) s = .next t ∧ v.toNat = ((s.reg a).toNat + imm.toNat) % 2 ^ 16 ∧ Written t b v ∧
      Advanced s t ∧ SameRegsExcept [b] s t ∧ OnlyRegsAndPc s t

/-- R120: the encoding under every well-formed OPMAP, and the effect. -/
def Obligations.OriOrsTheImmediate : Prop :=
  ∀ (a b : RegIdx) (imm : Imm) (s : State),
    Selects (fun m => encI m.opOri a b imm) (.ori a b imm) ∧
    ∃ t v, exec (.ori a b imm) s = .next t ∧ (∀ k : Nat, v.getLsbD k = ((s.reg a).getLsbD k || imm.getLsbD k)) ∧ Written t b v ∧
      Advanced s t ∧ SameRegsExcept [b] s t ∧ OnlyRegsAndPc s t

/-! ## Loads and stores -/

/-- R127 by the address read (R125 by decision D1, R131 by decision D22, the exhausted stream by decision D16 of the spec; log entries 8, 11, 16):
the byte, zero-extended, goes to `reg_b`; a port read has its device's effect; a refused read writes 0 and is reported. -/
def Obligations.LbuLoadsAByte : Prop :=
  ∀ (a b : RegIdx) (imm : Imm) (s : State),
    Selects (fun m => encI m.opLbu a b imm) (.lbu a b imm) ∧
    ∃ t, exec (.lbu a b imm) s = .next t ∧ Advanced s t ∧ SameRegsExcept [b] s t ∧ SameStorage s t ∧ SameEngine s t ∧
      t.halted = s.halted ∧ SameOutputs s t ∧ t.frames = s.frames ∧ t.ctrl = s.ctrl ∧ t.stdin = s.stdin ∧
      if (effectiveAddress s a imm).toNat < 0x7000 ∨
          (0x8000 ≤ (effectiveAddress s a imm).toNat ∧ (effectiveAddress s a imm).toNat ≤ 0xFFFF) then
        Written t b ((s.mem.read (effectiveAddress s a imm).toNat).setWidth 16) ∧ t.stdinPos = s.stdinPos ∧ t.diaglog = s.diaglog
      else if (effectiveAddress s a imm).toNat = 0x7000 then
        Written t b (s.ctrl.setWidth 16) ∧ t.stdinPos = s.stdinPos ∧ t.diaglog = s.diaglog
      else if (effectiveAddress s a imm).toNat = 0x7100 then
        (∀ x, s.stdin[s.stdinPos]? = some x → Written t b (x.setWidth 16) ∧ t.stdinPos = s.stdinPos + 1) ∧
        (s.stdin[s.stdinPos]? = none → Written t b (s.stdinEof.setWidth 16) ∧ t.stdinPos = s.stdinPos) ∧ t.diaglog = s.diaglog
      else
        Written t b 0#16 ∧ t.stdinPos = s.stdinPos ∧
          t.diaglog = s.diaglog ++ [.permissionViolation (effectiveAddress s a imm) .read .byte]

/-- R128 by the address read (R125 by decision D1, R131 by decision D22, ports by decision D8 of the spec; log entries 11, 16). -/
def Obligations.LwLoadsAWord : Prop :=
  ∀ (a b : RegIdx) (imm : Imm) (s : State),
    Selects (fun m => encI m.opLw a b imm) (.lw a b imm) ∧
    ∃ t, exec (.lw a b imm) s = .next t ∧ Advanced s t ∧ SameRegsExcept [b] s t ∧ SameStorage s t ∧ SameEngine s t ∧
      t.halted = s.halted ∧ SameInputs s t ∧ SameOutputs s t ∧ t.frames = s.frames ∧
      if (effectiveAddress s a imm).toNat < 0x7000 ∨
          (0x8000 ≤ (effectiveAddress s a imm).toNat ∧ (effectiveAddress s a imm).toNat ≤ 0xFFFF) then
        Written t b (s.mem.read (alignDown (effectiveAddress s a imm) 2) ++ s.mem.read (alignDown (effectiveAddress s a imm) 2 + 1)) ∧
          t.diaglog = s.diaglog
      else
        Written t b 0#16 ∧ t.diaglog = s.diaglog ++ [.permissionViolation (effectiveAddress s a imm) .read .word]

/-- R126 by the address stored to (R125 by decision D1 of the spec, log entry 11; that pc is advanced in the state the stop port halts is its
decision D12, guard G11, log entry 19), for storage in canonical form: the low byte of `reg_b`
goes to RAM, to an output stream, or raises the halt; a refused store is reported. Every other byte of storage is as before. -/
def Obligations.SbStoresTheLowByte : Prop :=
  ∀ (a b : RegIdx) (imm : Imm) (s : State), s.mem.wf = true →
    Selects (fun m => encI m.opSb a b imm) (.sb a b imm) ∧
    ∃ t, exec (.sb a b imm) s = .next t ∧ Advanced s t ∧ SameRegs s t ∧ SameEngine s t ∧ SameInputs s t ∧ t.frames = s.frames ∧
      if (effectiveAddress s a imm).toNat < 0x7000 then
        (t.mem.read (effectiveAddress s a imm).toNat).toNat = (s.reg b).toNat % 256 ∧
          SameStorageExcept [(effectiveAddress s a imm).toNat] s t ∧ t.halted = s.halted ∧ SameOutputs s t ∧ t.diaglog = s.diaglog
      else if (effectiveAddress s a imm).toNat = 0x7110 then
        t.stdout = s.stdout ++ [(s.reg b).extractLsb' 0 8] ∧ t.stderr = s.stderr ∧ SameStorage s t ∧ t.halted = s.halted ∧
          t.diaglog = s.diaglog
      else if (effectiveAddress s a imm).toNat = 0x7120 then
        t.stderr = s.stderr ++ [(s.reg b).extractLsb' 0 8] ∧ t.stdout = s.stdout ∧ SameStorage s t ∧ t.halted = s.halted ∧
          t.diaglog = s.diaglog
      else if (effectiveAddress s a imm).toNat = 0x7200 then
        t.halted = true ∧ SameStorage s t ∧ SameOutputs s t ∧ t.diaglog = s.diaglog
      else
        SameStorage s t ∧ t.halted = s.halted ∧ SameOutputs s t ∧
          t.diaglog = s.diaglog ++ [.permissionViolation (effectiveAddress s a imm) .write .byte]

/-- R129 by the address stored to (R125 by decision D1, ports by decision D8 of the spec; log entries 11, 16), for storage in canonical form: in
RAM the unit's two bytes take the register, most significant byte first, and every other byte is as before. -/
def Obligations.SwStoresTheRegister : Prop :=
  ∀ (a b : RegIdx) (imm : Imm) (s : State), s.mem.wf = true →
    Selects (fun m => encI m.opSw a b imm) (.sw a b imm) ∧
    ∃ t, exec (.sw a b imm) s = .next t ∧ Advanced s t ∧ SameRegs s t ∧ SameEngine s t ∧ t.halted = s.halted ∧ SameInputs s t ∧
      SameOutputs s t ∧ t.frames = s.frames ∧
      if (effectiveAddress s a imm).toNat < 0x7000 then
        (t.mem.read (alignDown (effectiveAddress s a imm) 2)).toNat = (s.reg b).toNat / 256 ∧
          (t.mem.read (alignDown (effectiveAddress s a imm) 2 + 1)).toNat = (s.reg b).toNat % 256 ∧
          SameStorageExcept [alignDown (effectiveAddress s a imm) 2, alignDown (effectiveAddress s a imm) 2 + 1] s t ∧
          t.diaglog = s.diaglog
      else
        SameStorage s t ∧ t.diaglog = s.diaglog ++ [.permissionViolation (effectiveAddress s a imm) .write .word]

/-- Guard G16 of 93_implementation_defined.md (decision D22 of the spec): off the guard, a load fetched from the ROM reports nothing. -/
def Obligations.LoadsOffTheirGuardReportNothing : Prop :=
  ∀ (s : State) (a b : RegIdx) (imm : Imm), AtInstruction s → Guard.holds .pcAbove s = false → Guard.holds .fetchFromRam s = false →
    Guard.holds .fetchFromIoZone s = false → Guard.holds .degradedLoad s = false →
    nextInstr s = some (.lbu a b imm) ∨ nextInstr s = some (.lw a b imm) →
    ∃ t, step s = .next t ∧ t.diaglog = s.diaglog

/-! ## Register arithmetic and logic -/

/-- R138: the encoding under every well-formed OPMAP, and the effect. The shift field is ignored at every value by R81, the spec's own decision
D4 (guard G4; log entry 2). -/
def Obligations.AddWritesTheSum : Prop :=
  ∀ (a b c : RegIdx) (sh : Shamt) (s : State),
    Selects (fun m => encR a b c sh m.fnAdd) (.add a b c sh) ∧
    ∃ t v, exec (.add a b c sh) s = .next t ∧ v.toNat = ((s.reg a).toNat + (s.reg b).toNat) % 2 ^ 16 ∧ Written t c v ∧
      Advanced s t ∧ SameRegsExcept [c] s t ∧ OnlyRegsAndPc s t

/-- R137: the encoding under every well-formed OPMAP, and the effect. The shift field is ignored at every value by R81, the spec's own decision
D4 (guard G4; log entry 2). -/
def Obligations.SubWritesTheDifference : Prop :=
  ∀ (a b c : RegIdx) (sh : Shamt) (s : State),
    Selects (fun m => encR a b c sh m.fnSub) (.sub a b c sh) ∧
    ∃ t v, exec (.sub a b c sh) s = .next t ∧ (v.toNat : Int) = (((s.reg a).toNat : Int) - (s.reg b).toNat) % 2 ^ 16 ∧ Written t c v ∧
      Advanced s t ∧ SameRegsExcept [c] s t ∧ OnlyRegsAndPc s t

/-- R139: the encoding under every well-formed OPMAP, and the effect. The shift field is ignored at every value by R81, the spec's own decision
D4 (guard G4; log entry 2). -/
def Obligations.AndWritesTheConjunction : Prop :=
  ∀ (a b c : RegIdx) (sh : Shamt) (s : State),
    Selects (fun m => encR a b c sh m.fnAnd) (.and a b c sh) ∧
    ∃ t v, exec (.and a b c sh) s = .next t ∧ (∀ k : Nat, v.getLsbD k = ((s.reg a).getLsbD k && (s.reg b).getLsbD k)) ∧ Written t c v ∧
      Advanced s t ∧ SameRegsExcept [c] s t ∧ OnlyRegsAndPc s t

/-- R136: the encoding under every well-formed OPMAP, and the effect. The shift field is ignored at every value by R81, the spec's own decision
D4 (guard G4; log entry 2). -/
def Obligations.OrWritesTheDisjunction : Prop :=
  ∀ (a b c : RegIdx) (sh : Shamt) (s : State),
    Selects (fun m => encR a b c sh m.fnOr) (.or a b c sh) ∧
    ∃ t v, exec (.or a b c sh) s = .next t ∧ (∀ k : Nat, v.getLsbD k = ((s.reg a).getLsbD k || (s.reg b).getLsbD k)) ∧ Written t c v ∧
      Advanced s t ∧ SameRegsExcept [c] s t ∧ OnlyRegsAndPc s t

/-- R135: the encoding under every well-formed OPMAP, and the effect. The shift field is ignored at every value by R81, the spec's own decision
D4 (guard G4; log entry 2). -/
def Obligations.NorWritesTheComplementOfOr : Prop :=
  ∀ (a b c : RegIdx) (sh : Shamt) (s : State),
    Selects (fun m => encR a b c sh m.fnNor) (.nor a b c sh) ∧
    ∃ t v, exec (.nor a b c sh) s = .next t ∧
      (∀ k : Nat, k < 16 → v.getLsbD k = !((s.reg a).getLsbD k || (s.reg b).getLsbD k)) ∧ Written t c v ∧
      Advanced s t ∧ SameRegsExcept [c] s t ∧ OnlyRegsAndPc s t

/-- R140: the encoding under every well-formed OPMAP, and the effect. The shift field is ignored at every value by R81, the spec's own decision
D4 (guard G4; log entry 2). -/
def Obligations.SltWritesTheSignedComparison : Prop :=
  ∀ (a b c : RegIdx) (sh : Shamt) (s : State),
    Selects (fun m => encR a b c sh m.fnSlt) (.slt a b c sh) ∧
    ∃ t v, exec (.slt a b c sh) s = .next t ∧ (v = 0#16 ∨ v = 1#16) ∧ (v = 1#16 ↔ (s.reg a).toInt < (s.reg b).toInt) ∧ Written t c v ∧
      Advanced s t ∧ SameRegsExcept [c] s t ∧ OnlyRegsAndPc s t

/-! ## Shifts -/

/-- R145: counts 16 to 31 by decision D10 of the spec (guard G9; log entry 14); the ignored `reg_a` may hold any value by R81, the spec's
own decision D4 (guard G4; log entry 2). -/
def Obligations.SllMultiplies : Prop :=
  ∀ (a b c : RegIdx) (sh : Shamt) (s : State),
    Selects (fun m => encR a b c sh m.fnSll) (.sll a b c sh) ∧
    ∃ t v, exec (.sll a b c sh) s = .next t ∧ v.toNat = ((s.reg b).toNat * 2 ^ sh.toNat) % 2 ^ 16 ∧ Written t c v ∧
      Advanced s t ∧ SameRegsExcept [c] s t ∧ OnlyRegsAndPc s t

/-- R146: counts 16 to 31 by decision D10 of the spec (guard G9; log entry 14); the ignored `reg_a` may hold any value by R81, the spec's
own decision D4 (guard G4; log entry 2). -/
def Obligations.SrlDivides : Prop :=
  ∀ (a b c : RegIdx) (sh : Shamt) (s : State),
    Selects (fun m => encR a b c sh m.fnSrl) (.srl a b c sh) ∧
    ∃ t v, exec (.srl a b c sh) s = .next t ∧ v.toNat = (s.reg b).toNat / 2 ^ sh.toNat ∧ Written t c v ∧
      Advanced s t ∧ SameRegsExcept [c] s t ∧ OnlyRegsAndPc s t

/-- R147: counts 16 to 31 by decision D10 of the spec (guard G9; log entry 14); the ignored `reg_a` may hold any value by R81, the spec's
own decision D4 (guard G4; log entry 2). The result, read as signed, is the source, read as signed, divided by
2^shift and rounded toward minus infinity. -/
def Obligations.SraDividesSigned : Prop :=
  ∀ (a b c : RegIdx) (sh : Shamt) (s : State),
    Selects (fun m => encR a b c sh m.fnSra) (.sra a b c sh) ∧
    ∃ t v, exec (.sra a b c sh) s = .next t ∧ v.toInt = (s.reg b).toInt.fdiv (2 ^ sh.toNat) ∧ Written t c v ∧
      Advanced s t ∧ SameRegsExcept [c] s t ∧ OnlyRegsAndPc s t

/-- R148: the three shifts bit by bit; the counts 16 to 31 by decision D10 of the spec (guard G9; log entry 14). -/
def Obligations.ShiftsBitByBit : Prop :=
  ∀ (v : Word) (n k : Nat), n < 32 → k < 16 →
    (shiftLeft v n).getLsbD k = (if k < n then false else v.getLsbD (k - n)) ∧
    (shiftRight v n).getLsbD k = (if k + n < 16 then v.getLsbD (k + n) else false) ∧
    (shiftRightSigned v n).getLsbD k = (if k + n < 16 then v.getLsbD (k + n) else v.getLsbD 15)

/-- R82 with R12: an instruction that touches no memory and whose destination is register 0 changes only pc, whatever its
ignored fields hold (R81, decision D4 of the spec, log entry 2). -/
def Obligations.DestinationZeroChangesOnlyPc : Prop :=
  ∀ (a b : RegIdx) (imm : Imm) (sh : Shamt) (s : State),
    (∀ i ∈ [Instr.addi a 0#5 imm, .ori a 0#5 imm], exec i s = .next { s with pc := narrow s.config.addrWidth (s.pc + 4#32) }) ∧
    (∀ i ∈ [Instr.sll a b 0#5 sh, .srl a b 0#5 sh, .sra a b 0#5 sh, .add a b 0#5 sh, .sub a b 0#5 sh, .and a b 0#5 sh, .or a b 0#5 sh,
      .nor a b 0#5 sh, .slt a b 0#5 sh], exec i s = .next { s with pc := narrow s.config.addrWidth (s.pc + 4#32) })

/-! ## The session -/

/-- R173 to R175 under the bounds of R171 and R176 (decision D15 of the spec): a mount places the image at 0x8000 and the block in RAM, loads the two
latches, and changes nothing else but the model's own `stage` (log entry 7). -/
def Obligations.MountPlacesTheImage : Prop :=
  ∀ (rom : List Byte) (s : State), rom.length = 32768 → relocationFits rom = true →
    ∃ t, mountRom rom s = .next t ∧
      (∀ i, i < 32768 → rom[i]? = some (t.mem.read (0x8000 + i))) ∧
      (∀ i, i < (be32At rom 0x1F0).toNat → rom[(be32At rom 0x1E8).toNat + i]? = some (t.mem.read ((be32At rom 0x1EC).toNat + i))) ∧
      (∀ x, x < 0x8000 → ¬((be32At rom 0x1EC).toNat ≤ x ∧ x < (be32At rom 0x1EC).toNat + (be32At rom 0x1F0).toNat) →
        t.mem.read x = s.mem.read x) ∧
      t.setupEntry = be32At rom 0x1E0 ∧ t.loopEntry = be32At rom 0x1E4 ∧
      t.pc = s.pc ∧ SameRegs s t ∧ t.phase = s.phase ∧ t.halted = s.halted ∧ t.config = s.config ∧
      SameInputs s t ∧ SameOutputs s t ∧ SameLogs s t

/-- R177, in every state, so after a program has run too: mounting the same image twice in a row gives the memory of mounting it once; a
mount overwrites the ROM bytes and the relocated bytes and no other, and does not reset registers, pc or phase. -/
def Obligations.MountIsIdempotent : Prop :=
  ∀ (rom : List Byte) (s t : State), s.mem.wf = true → mountRom rom s = .next t →
    (∃ u, mountRom rom t = .next u ∧ u.mem = t.mem) ∧
    (∀ i, i < 32768 → rom[i]? = some (t.mem.read (0x8000 + i))) ∧
    (∀ i, i < (be32At rom 0x1F0).toNat → rom[(be32At rom 0x1E8).toNat + i]? = some (t.mem.read ((be32At rom 0x1EC).toNat + i))) ∧
    (∀ x, t.mem.read x ≠ s.mem.read x →
      (0x8000 ≤ x ∧ x ≤ 0xFFFF) ∨ ((be32At rom 0x1EC).toNat ≤ x ∧ x < (be32At rom 0x1EC).toNat + (be32At rom 0x1F0).toNat)) ∧
    t.pc = s.pc ∧ SameRegs s t ∧ t.phase = s.phase

/-- R171, R176 (decision D15 of the spec): an image of another size, or with a relocation block out of bounds, is refused. -/
def Obligations.BadImagesAreRefused : Prop :=
  ∀ (rom : List Byte) (s : State),
    (rom.length ≠ 32768 → mountRom rom s = .refused .romImageSize) ∧
    (rom.length = 32768 →
      32768 < (be32At rom 0x1E8).toNat + (be32At rom 0x1F0).toNat ∨ 0x7000 < (be32At rom 0x1EC).toNat + (be32At rom 0x1F0).toNat →
      mountRom rom s = .refused .relocationOutOfBounds)

/-- R170 and R101 (the stages are the model's field `stage`, log entry 7): no instruction executes before the start; the start, once and after
the mount, sets pc to setup_entry and changes nothing else. -/
def Obligations.StartEntersSetup : Prop :=
  ∀ s : State,
    (s.stage = .constructed ∨ s.stage = .mounted → step s = .next s) ∧
    (s.stage = .mounted → start s = .next { s with pc := narrow s.config.addrWidth s.setupEntry, stage := .running }) ∧
    (s.stage ≠ .mounted → start s = .refused .startOutOfOrder)

/-- R185 (byte order of pc and registers by decision D18 of the spec): length and layout of the blob. -/
def Obligations.SnapshotLayout : Prop :=
  ∀ s : State, (snapshot s).length = 65604 ∧ be32At (snapshot s) 0 = s.pc ∧
    (∀ r : RegIdx, byteAt (snapshot s) (4 + 2 * r.toNat) ++ byteAt (snapshot s) (5 + 2 * r.toNat) = s.reg r) ∧
    (∀ a, a < 65536 → byteAt (snapshot s) (68 + a) = s.mem.read a)

/-- R187: restoring a snapshot reproduces pc (a pc of the width the engine restored into has, as every reachable one of its parameters is: Inv),
every register and all of memory. That phase, latches, `halted`, `ctrl`, streams and logs stay those of the engine restored into is R186
(decision D18 of the spec for the blob, log entry 25); that its `stage` does, the place where execution goes on after a restore, is the
model's choice (log entry 13), which R187 and row U13 leave open. -/
def Obligations.RestoreOfSnapshotReproduces : Prop :=
  ∀ s f : State, ∃ t, restore (snapshot s) f = .next t ∧ (s.pc.toNat < 2 ^ f.config.addrWidth.bits → t.pc = s.pc) ∧
    SameRegs s t ∧ (∀ a, a < 65536 → t.mem.read a = s.mem.read a) ∧
    SameEngine f t ∧ t.halted = f.halted ∧ SameInputs f t ∧ SameOutputs f t ∧ SameLogs f t

/-- R186 (decision D18 of the spec): a blob of 65604 bytes is restored whole, the bytes of register 0 ignored, into storage in canonical form;
any other length is refused. -/
def Obligations.RestoreTakesWholeBlobsOnly : Prop :=
  ∀ (blob : List Byte) (s : State),
    (blob.length ≠ 65604 → restore blob s = .refused .snapshotGeometry) ∧
    (blob.length = 65604 → ∃ t, restore blob s = .next t ∧ t.pc = narrow s.config.addrWidth (be32At blob 0) ∧
      t.mem.wf = true ∧ t.regs[0] = 0#16 ∧
      (∀ r : RegIdx, r ≠ 0#5 → t.reg r = byteAt blob (4 + 2 * r.toNat) ++ byteAt blob (5 + 2 * r.toNat)) ∧
      (∀ a, a < 65536 → t.mem.read a = byteAt blob (68 + a)))
end

