-- ==== Sys2Proof/Tests/Slice0.lean ====
section
/-! SUPPORT. Tests. Expected values come from 95_test_vectors.md (the vector's number stands at each) or from the rule named; a
`witness_…` theorem gives concrete values that meet all hypotheses of the obligation it is named after, at the ends of its ranges. -/

namespace Sys2Proof.Tests

open Sys2Proof.Machine Sys2Proof.Safety

/-! ### The smoke test of the static checks: each check of WellFormed.lean refuses a term -/

theorem test_opmap_wf : opmap.wf = true := by decide

/-- An opcode number may not be the sentinel 28, nor any number stand twice among the opcodes or the functions (R79). -/
theorem test_opmap_ill_formed :
    ({ opmap with opJ := 28#6 }).wf = false ∧ ({ opmap with opJ := 3#6 }).wf = false ∧ ({ opmap with fnJr := 0#6 }).wf = false := by
  decide

/-- An opcode and a function may share a number (36 is LBU and AND), and a function may be 28 (R79). -/
theorem test_opmap_spaces_are_apart : ({ opmap with fnJr := 28#6, opJ := 8#6, opAddi := 2#6 }).wf = true := by decide

theorem test_ignored_fields_ill_formed :
    (Instr.j 31#5 0#5 0x2083#16).wellFormed = false ∧ (Instr.jal 0#5 1#5 0#16).wellFormed = false ∧
    (Instr.sll 1#5 2#5 3#5 2#5).wellFormed = false ∧ (Instr.srl 1#5 2#5 3#5 2#5).wellFormed = false ∧
    (Instr.sra 31#5 2#5 3#5 2#5).wellFormed = false ∧ (Instr.jr 1#5 31#5 0#5 0#5).wellFormed = false ∧
    (Instr.jr 1#5 0#5 31#5 0#5).wellFormed = false ∧ (Instr.jr 1#5 0#5 0#5 31#5).wellFormed = false ∧
    (Instr.add 1#5 2#5 3#5 31#5).wellFormed = false ∧ (Instr.sub 1#5 2#5 3#5 1#5).wellFormed = false ∧
    (Instr.and 1#5 2#5 3#5 1#5).wellFormed = false ∧ (Instr.or 1#5 2#5 3#5 1#5).wellFormed = false ∧
    (Instr.nor 1#5 2#5 3#5 1#5).wellFormed = false ∧ (Instr.slt 1#5 2#5 3#5 1#5).wellFormed = false ∧
    (Instr.lw 1#5 4#5 0#16).wellFormed = true ∧ (Instr.and 10#5 5#5 11#5 0#5).wellFormed = true := by
  decide

/-- Not in canonical form: falling addresses, an address twice, an address past the space, a cell of the unlisted value. -/
theorem test_memory_ill_formed :
    Memory.wf [(2, 1#8), (1, 1#8)] = false ∧ Memory.wf [(1, 1#8), (1, 2#8)] = false ∧ Memory.wf [(65536, 1#8)] = false ∧
    Memory.wf [(1, 0#8)] = false ∧ Memory.wf [(0, 1#8), (65535, 255#8)] = true := by
  decide

/-! ### Decoding: one word per constructor, from the encodings of 95_test_vectors.md -/

theorem test_decode_j : decode 0x08002083#32 = .instr (.j 0#5 0#5 0x2083#16) := by decide
theorem test_decode_jal : decode 0x0C002090#32 = .instr (.jal 0#5 0#5 0x2090#16) := by decide
theorem test_decode_beq : decode 0x10220003#32 = .instr (.beq 1#5 2#5 3#16) := by decide
theorem test_decode_bne : decode 0x14220003#32 = .instr (.bne 1#5 2#5 3#16) := by decide
theorem test_decode_addi : decode 0x2001000A#32 = .instr (.addi 0#5 1#5 10#16) := by decide
theorem test_decode_ori : decode 0x342200FF#32 = .instr (.ori 1#5 2#5 0xFF#16) := by decide
theorem test_decode_lw : decode 0x8C0381E2#32 = .instr (.lw 0#5 3#5 0x81E2#16) := by decide
theorem test_decode_lbu : decode 0x90230001#32 = .instr (.lbu 1#5 3#5 1#16) := by decide
theorem test_decode_sb : decode 0xA0220000#32 = .instr (.sb 1#5 2#5 0#16) := by decide
theorem test_decode_sw : decode 0xAC024001#32 = .instr (.sw 0#5 2#5 0x4001#16) := by decide
theorem test_decode_sll : decode 0x70021BC0#32 = .instr (.sll 0#5 2#5 3#5 15#5) := by decide
theorem test_decode_srl : decode 0x70021882#32 = .instr (.srl 0#5 2#5 3#5 2#5) := by decide
theorem test_decode_sra : decode 0x73E21883#32 = .instr (.sra 31#5 2#5 3#5 2#5) := by decide
theorem test_decode_jr : decode 0x703FFFC8#32 = .instr (.jr 1#5 31#5 31#5 31#5) := by decide
theorem test_decode_add : decode 0x70221FE0#32 = .instr (.add 1#5 2#5 3#5 31#5) := by decide
theorem test_decode_sub : decode 0x70411822#32 = .instr (.sub 2#5 1#5 3#5 0#5) := by decide
theorem test_decode_and : decode 0x71455824#32 = .instr (.and 10#5 5#5 11#5 0#5) := by decide
theorem test_decode_or : decode 0x70221825#32 = .instr (.or 1#5 2#5 3#5 0#5) := by decide
theorem test_decode_nor : decode 0x70221827#32 = .instr (.nor 1#5 2#5 3#5 0#5) := by decide
theorem test_decode_slt : decode 0x7041182A#32 = .instr (.slt 2#5 1#5 3#5 0#5) := by decide

/-- The decode table of Part 2: the words around the sentinel's range. -/
theorem test_decode_fields :
    fieldsOf 0x65E0FFFF#32 = .iType 25#6 15#5 0#5 0xFFFF#16 ∧ fieldsOf 0x73FF4B90#32 = .rType 31#5 31#5 9#5 14#5 16#6 ∧
    fieldsOf 0x6FFFFFFF#32 = .iType 27#6 31#5 31#5 0xFFFF#16 ∧ fieldsOf 0x70000000#32 = .rType 0#5 0#5 0#5 0#5 0#6 ∧
    fieldsOf 0x73FFFFFF#32 = .rType 31#5 31#5 31#5 31#5 63#6 ∧ fieldsOf 0x74000000#32 = .iType 29#6 0#5 0#5 0#16 := by
  decide

/-- The host's question on a table row, and on a word that is no row's. -/
theorem test_table_word :
    decodeTableWord 32 0x8C240000 = some (.lw 1#5 4#5 0#16) ∧ decodeTableWord 32 0x65E0FFFF = none := by
  decide

/-- Decoding of bytes: most significant first, the rest left over, a short list refused (R49, R70). -/
theorem test_decode_bytes :
    decodeBytes [0x20#8, 0x01#8, 0x00#8, 0x0A#8, 0x55#8] = some (.instr (.addi 0#5 1#5 10#16), [0x55#8]) ∧
    decodeBytes [0x20#8, 0x01#8, 0x00#8] = none := by
  decide

/-! ### One step -/

/-- The start state of Part 2: reset values, pc 0x8200, the word in the ROM there, and the registers and bytes a row names. -/
def start (w : IWord) (regs : List (RegIdx × Word)) (cells : List (Nat × Byte)) : State :=
  cells.foldl (fun s c => s.storeByte c.1 c.2) (regs.foldl (fun s r => s.setReg r.1 r.2) (State.reset.withFetchWord 32 w.toNat))

/-- The state after one step. -/
def after (s : State) : State :=
  match step s with
  | .next t => t
  | .fault _ | .refused _ => s

/-- The host's placement of a word: the first step after it runs it (V-AI5). -/
theorem test_with_fetch_word :
    (after (State.reset.withFetchWord 32 0x2001000A)).reg 1#5 = 10#16 ∧ (after (State.reset.withFetchWord 32 0x2001000A)).pc = 0x8204#32 := by
  decide

/-- V-CT1. -/
theorem test_ct1_beq_not_taken :
    let t := after (start 0x10220003#32 [(1#5, 0xA#16), (2#5, 0x5#16)] [])
    t.pc = 0x8204#32 := by
  decide

/-- V-CT4. -/
theorem test_ct4_beq_unsigned :
    let t := after (start 0x1000FFFF#32 [] [])
    t.pc = 0x481FC#32 := by
  decide

/-- V-CT5, conflict C1 as log entry 10. -/
theorem test_ct5_bne_taken :
    let t := after (start 0x14220003#32 [(1#5, 0xA#16), (2#5, 0x5#16)] [])
    t.pc = 0x820C#32 := by
  decide

/-- V-CT8. -/
theorem test_ct8_bne_not_taken :
    let t := after (start 0x14220003#32 [(1#5, 0xFFFF#16), (2#5, 0xFFFF#16)] [])
    t.pc = 0x8204#32 := by
  decide

/-- V-CT11. -/
theorem test_ct11_j_ignores_fields :
    let t := after (start 0x0BFF2083#32 [] [])
    t.pc = 0x820C#32 := by
  decide

/-- V-CT12. -/
theorem test_ct12_j_above :
    let t := after (start 0x08004000#32 [] [])
    t.pc = 0x10000#32 := by
  decide

/-- V-CT13. -/
theorem test_ct13_jal :
    let t := after (start 0x0C002090#32 [] [])
    t.reg 31#5 = 0x8204#16 ∧ t.pc = 0x8240#32 := by
  decide

/-- V-CT17. -/
theorem test_ct17_jr_unaligned :
    let t := after (start 0x70200008#32 [(1#5, 0xA#16)] [])
    t.pc = 0xA#32 := by
  decide

/-- V-CT20. -/
theorem test_ct20_jr_ignores_fields :
    let t := after (start 0x703FFFC8#32 [(1#5, 0x8240#16), (31#5, 0x9999#16)] [])
    t.pc = 0x8240#32 ∧ t.reg 31#5 = 0x9999#16 := by
  decide

/-- V-AI2. -/
theorem test_ai2_ori :
    let t := after (start 0x342200FF#32 [(1#5, 0x1234#16)] [])
    t.reg 2#5 = 0x12FF#16 ∧ t.reg 1#5 = 0x1234#16 ∧ t.pc = 0x8204#32 := by
  decide

/-- V-AI4. -/
theorem test_ai4_ori_discarded :
    let t := after (start 0x3420FFFF#32 [(1#5, 0x1#16)] [])
    t.reg 0#5 = 0x0#16 ∧ t.reg 1#5 = 0x1#16 ∧ t.pc = 0x8204#32 := by
  decide

/-- V-AI6. -/
theorem test_ai6_addi_wraps :
    let t := after (start 0x2021FFFF#32 [(1#5, 0xA#16)] [])
    t.reg 1#5 = 0x9#16 ∧ t.pc = 0x8204#32 := by
  decide

/-- V-AI10. -/
theorem test_ai10_addi_discarded :
    let t := after (start 0x20000005#32 [] [])
    t.reg 0#5 = 0x0#16 ∧ t.pc = 0x8204#32 := by
  decide

/-- V-LS1. -/
theorem test_ls1_sb :
    let t := after (start 0xA0220000#32 [(1#5, 0x4000#16), (2#5, 0xABCD#16)] [])
    t.mem.read 0x4000 = 0xCD#8 ∧ t.mem.read 0x4001 = 0x0#8 ∧ t.pc = 0x8204#32 := by
  decide

/-- V-LS8. -/
theorem test_ls8_sb_stop :
    let t := after (start 0xA0027200#32 [(2#5, 0x99#16)] [])
    t.halted = true ∧ t.mem.read 0x7200 = 0x0#8 ∧ t.pc = 0x8204#32 := by
  decide

/-- V-LS11. -/
theorem test_ls11_lbu :
    let t := after (start 0x90230001#32 [(1#5, 0x4000#16), (3#5, 0xFFFF#16)] [(0x4001, 0x80#8)])
    t.reg 3#5 = 0x80#16 ∧ t.pc = 0x8204#32 := by
  decide

/-- V-LS15. -/
theorem test_ls15_lbu_refused :
    let t := after (start 0x90037110#32 [(3#5, 0x1234#16)] [])
    t.reg 3#5 = 0x0#16 ∧ t.pc = 0x8204#32 ∧ t.diaglog = [.permissionViolation 0x7110#32 .read .byte] := by
  decide

/-- V-LS20. -/
theorem test_ls20_lw_rounds_down :
    let t := after (start 0x8C030101#32 [] [(0x100, 0x12#8), (0x101, 0x34#8), (0x102, 0x56#8)])
    t.reg 3#5 = 0x1234#16 ∧ t.pc = 0x8204#32 ∧ t.diaglog = [] := by
  decide

/-- V-LS22. -/
theorem test_ls22_lw_port :
    let t := after (start 0x8C037000#32 [(3#5, 0x1234#16)] [])
    t.reg 3#5 = 0x0#16 ∧ t.pc = 0x8204#32 ∧ t.diaglog = [.permissionViolation 0x7000#32 .read .word] := by
  decide

/-- V-LS26. -/
theorem test_ls26_sw_rounds_down :
    let t := after (start 0xAC024001#32 [(2#5, 0x5678#16)] [])
    t.mem.read 0x4000 = 0x56#8 ∧ t.mem.read 0x4001 = 0x78#8 ∧ t.mem.read 0x4002 = 0x0#8 ∧ t.pc = 0x8204#32 := by
  decide

/-- V-LS30. -/
theorem test_ls30_sw_above :
    let t := after (start 0xAC228000#32 [(1#5, 0x8000#16), (2#5, 0x1#16)] [])
    t.mem.read 0x0 = 0x0#8 ∧ t.mem.read 0x1 = 0x0#8 ∧ t.pc = 0x8204#32 ∧ t.diaglog = [.permissionViolation 0x10000#32 .write .word] := by
  decide

/-- V-AR1. -/
theorem test_ar1_nor :
    let t := after (start 0x70221827#32 [(1#5, 0xA#16), (2#5, 0x5#16), (3#5, 0x8#16)] [])
    t.reg 3#5 = 0xFFF0#16 ∧ t.pc = 0x8204#32 := by
  decide

/-- V-AR3. -/
theorem test_ar3_nor_complements :
    let t := after (start 0x70201827#32 [(1#5, 0xFF#16)] [])
    t.reg 3#5 = 0xFF00#16 := by
  decide

/-- V-AR4. -/
theorem test_ar4_or :
    let t := after (start 0x70221825#32 [(1#5, 0xA#16), (2#5, 0x5#16), (3#5, 0x8#16)] [])
    t.reg 3#5 = 0xF#16 ∧ t.pc = 0x8204#32 := by
  decide

/-- V-AR7. -/
theorem test_ar7_sub_wraps :
    let t := after (start 0x70411822#32 [(1#5, 0xA#16), (2#5, 0x5#16)] [])
    t.reg 3#5 = 0xFFFB#16 ∧ t.pc = 0x8204#32 := by
  decide

/-- V-AR9. -/
theorem test_ar9_sub_overflow :
    let t := after (start 0x70221822#32 [(1#5, 0x8000#16), (2#5, 0x1#16)] [])
    t.reg 3#5 = 0x7FFF#16 := by
  decide

/-- V-AR13. -/
theorem test_ar13_add_into_source :
    let t := after (start 0x70210820#32 [(1#5, 0x8001#16)] [])
    t.reg 1#5 = 0x2#16 ∧ t.pc = 0x8204#32 := by
  decide

/-- V-AR15. -/
theorem test_ar15_add_ignores_shift :
    let t := after (start 0x70221FE0#32 [(1#5, 0xA#16), (2#5, 0x5#16)] [])
    t.reg 3#5 = 0xF#16 := by
  decide

/-- V-AR17. -/
theorem test_ar17_and :
    let t := after (start 0x70221824#32 [(1#5, 0xFF0F#16), (2#5, 0xFF0#16)] [])
    t.reg 3#5 = 0xF00#16 ∧ t.pc = 0x8204#32 := by
  decide

/-- V-AR20. -/
theorem test_ar20_slt_signed :
    let t := after (start 0x7022182A#32 [(1#5, 0xFFFF#16), (2#5, 0x0#16)] [])
    t.reg 3#5 = 0x1#16 ∧ t.pc = 0x8204#32 := by
  decide

/-- V-AR21. -/
theorem test_ar21_slt_signed_false :
    let t := after (start 0x7022182A#32 [(1#5, 0x0#16), (2#5, 0xFFFF#16), (3#5, 0x8#16)] [])
    t.reg 3#5 = 0x0#16 := by
  decide

/-- V-SH3. -/
theorem test_sh3_sll :
    let t := after (start 0x70021880#32 [(2#5, 0xC001#16)] [])
    t.reg 3#5 = 0x4#16 ∧ t.pc = 0x8204#32 := by
  decide

/-- V-SH5. -/
theorem test_sh5_sll_long :
    let t := after (start 0x70021C00#32 [(2#5, 0xFFFF#16), (3#5, 0x8#16)] [])
    t.reg 3#5 = 0x0#16 := by
  decide

/-- V-SH8. -/
theorem test_sh8_srl :
    let t := after (start 0x70021882#32 [(2#5, 0x8000#16)] [])
    t.reg 3#5 = 0x2000#16 ∧ t.pc = 0x8204#32 := by
  decide

/-- V-SH10. -/
theorem test_sh10_srl_long :
    let t := after (start 0x70021FC2#32 [(2#5, 0xFFFF#16), (3#5, 0x8#16)] [])
    t.reg 3#5 = 0x0#16 := by
  decide

/-- V-SH13. -/
theorem test_sh13_sra_rounds_down :
    let t := after (start 0x70021843#32 [(2#5, 0xFFFB#16)] [])
    t.reg 3#5 = 0xFFFD#16 ∧ t.pc = 0x8204#32 := by
  decide

/-- V-SH17. -/
theorem test_sh17_sra_ignores_a :
    let t := after (start 0x73E21883#32 [(2#5, 0x8000#16), (31#5, 0x7777#16)] [])
    t.reg 3#5 = 0xE000#16 := by
  decide

/-- V-LS6, V-LS7, V-LS13, V-LS14: the ports. -/
theorem test_ports :
    (after (start 0xA0027110#32 [(2#5, 0x141#16)] [])).stdout = [0x41#8] ∧
    (after (start 0xA0027120#32 [(2#5, 0x42#16)] [])).stderr = [0x42#8] ∧
    (after ({ start 0x90037000#32 [] [] with ctrl := 0xA5#8 })).reg 3#5 = 0xA5#16 ∧
    (after ({ start 0x90037100#32 [] [] with stdin := [0x68#8, 0x69#8] })).reg 3#5 = 0x68#16 ∧
    (after ({ start 0x90037100#32 [] [] with stdin := [0x68#8, 0x69#8] })).stdinPos = 1 := by
  decide

/-- E8 of Part 1 and conflict C1: BNE with immediate 3 from pc 0 goes to 12 under BR_BASE 0 and to 16 under BR_BASE 4. -/
theorem test_branch_base :
    (branchIf true 3#16 State.reset).pc = 12#32 ∧
    (branchIf true 3#16 (State.resetWith { defaultConfig with brBase := .four })).pc = 16#32 := by
  decide

/-- Guard G1 under both readings of decision D1: 0xFFFF + 1 is above the space under AW 32, and 0 under AW 16. -/
theorem test_address_width :
    effectiveAddress (State.reset.setReg 1#5 1#16) 1#5 0xFFFF#16 = 0x10000#32 ∧
    effectiveAddress ((State.resetWith { defaultConfig with addrWidth := .bits16 }).setReg 1#5 1#16) 1#5 0xFFFF#16 = 0#32 := by
  decide

/-- Another OPMAP: with the numbers of J and ADDI exchanged the word of ADDI is a J. -/
theorem test_other_opmap :
    (after ({ start 0x20012083#32 [] [] with config := { defaultConfig with
      opmap := { opmap with opJ := 8#6, opAddi := 2#6 }, opmapWf := by decide } })).pc = 0x820C#32 := by
  decide

/-- R79: no parameters hold an ill-formed map, here one with the sentinel among its opcodes. -/
theorem test_ill_formed_opmap_is_no_parameter (c : Config) : c.opmap ≠ { opmap with opJ := 28#6 } := by
  intro h
  have := c.opmapWf
  rw [h] at this
  exact absurd this (by decide)

/-- REG_RESET and MEM_RESET (R29): register 0 stays 0. -/
theorem test_reset_parameters :
    (State.resetWith { defaultConfig with regReset := 0xBEEF#16 }).reg 1#5 = 0xBEEF#16 ∧
    (State.resetWith { defaultConfig with regReset := 0xBEEF#16 }).reg 0#5 = 0#16 ∧
    (Memory.filled 0xAA#8).read 0xFFFF = 0xAA#8 :=
  ⟨by decide, by decide, Memory.read_filled _ (by decide)⟩

/-- V-CT14: the link value cut to 16 bits. -/
theorem test_ct14_link_cut :
    (after ({ State.reset with pc := 0xFFFC#32, stage := .running, mem := Memory.ofBytes 0xFFFC [0x0C#8, 0x00#8, 0x20#8, 0x90#8] })).reg 31#5
      = 0#16 := by
  decide

/-- V-UN1, V-UN2. -/
theorem test_unknown_encodings :
    (after (start 0x65E0FFFF#32 [] [])).diaglog = [.unknownOpcode 25#6 0x8200#32 0x65E0FFFF#32] ∧
    (after (start 0x65E0FFFF#32 [] [])).pc = 0x8204#32 ∧
    (after (start 0x73FF4B90#32 [] [])).diaglog = [.unknownFunction 16#6 0x8200#32 0x73FF4B90#32] := by
  decide

/-- V-UN7: RAM is not executable. -/
theorem test_un7_degraded_fetch :
    let t := after ({ State.reset with pc := 0x100#32, stage := .running, mem := Memory.ofBytes 0x100 [0x20#8, 0x01#8, 0x00#8, 0x0A#8] })
    t.pc = 0x104#32 ∧ t.reg 1#5 = 0#16 ∧
      t.diaglog = [.permissionViolation 0x100#32 .execute .instruction, .unknownOpcode 0#6 0x100#32 0#32] := by
  decide

/-- V-UN10: an unaligned pc fetches the word of its unit and stays unaligned. -/
theorem test_un10_unaligned_pc :
    let t := after ({ start 0x2001000A#32 [] [] with pc := 0x8203#32 })
    t.pc = 0x8207#32 ∧ t.reg 1#5 = 10#16 ∧ t.diaglog = [] := by
  decide

/-! ### The session -/

/-- The image of V-MT1, the size field a parameter (V-MT2 has 0x7000). -/
def image (n1 n0 : Byte) : List Byte :=
  [0x53#8, 0x4C#8, 0x55#8, 0x47#8] ++ List.replicate 0x1DC 0#8 ++
  [0#8, 0#8, 0x82#8, 0#8, 0#8, 0#8, 0x83#8, 0#8, 0#8, 0#8, 0x03#8, 0#8, 0#8, 0#8, 0x01#8, 0#8, 0#8, 0#8, n1, n0] ++
  List.replicate 0x10C 0#8 ++ [0#8, 1#8, 2#8, 3#8, 0#8, 0xFF#8, 0x80#8, 0#8] ++ List.replicate 0x7CF8 0#8

theorem image_length (n1 n0 : Byte) : (image n1 n0).length = 32768 := by
  simp only [image, List.length_append, List.length_replicate, List.length_cons, List.length_nil]

/-- V-MT1: the latches, the image and the block. -/
theorem test_mount :
    hasMagic (image 0#8 8#8) = true ∧ hasMagic (List.replicate 32768 0#8) = false ∧
    relocationFits (image 0#8 8#8) = true ∧
    be32At (image 0#8 8#8) 0x1E0 = 0x8200#32 ∧ be32At (image 0#8 8#8) 0x1E4 = 0x8300#32 ∧
    (mountMemory (image 0#8 8#8) []).read 0x8000 = 0x53#8 ∧ (mountMemory (image 0#8 8#8) []).read 0x81E2 = 0x82#8 ∧
    (mountMemory (image 0#8 8#8) []).read 0x105 = 0xFF#8 ∧ (mountMemory (image 0#8 8#8) []).read 0x108 = 0#8 := by
  have hf : relocationFits (image 0#8 8#8) = true := by decide +kernel
  simp only [read_mountMemory (image_length _ _) hf]
  decide +kernel

/-- V-MT2 is refused: the block would leave the RAM. -/
theorem test_mount_out_of_bounds : relocationFits (image 0x70#8 0#8) = false := by decide +kernel

/-- S1: the first 68 bytes of the blob. -/
theorem test_snapshot_bytes :
    let s := ({ State.reset with pc := 0x8228#32 }.setReg 1#5 0xA#16).setReg 31#5 0x8210#16
    (snapshot s).take 8 = [0x00#8, 0x00#8, 0x82#8, 0x28#8, 0x00#8, 0x00#8, 0x00#8, 0x0A#8] ∧
      byteAt (snapshot s) 66 = 0x82#8 ∧ byteAt (snapshot s) 67 = 0x10#8 := by
  decide

/-- A new session: nothing runs before the start, the start comes once and after the mount (R170). -/
theorem test_stages :
    after State.reset = State.reset ∧
    Machine.start State.reset = .refused .startOutOfOrder ∧
    Machine.start { State.reset with stage := .mounted, setupEntry := 0x8200#32 } =
      .next { State.reset with stage := .running, setupEntry := 0x8200#32, pc := 0x8200#32 } ∧
    Machine.start { State.reset with stage := .running } = .refused .startOutOfOrder :=
  ⟨rfl, rfl, rfl, rfl⟩

/-! ### Witnesses: concrete values that meet the hypotheses of the obligations -/

/-- A store-byte to RAM, with storage in canonical form, about to execute. -/
def sample : State := start 0xA0220000#32 [(1#5, 0x4000#16), (2#5, 0xABCD#16)] []

theorem sample_at : AtInstruction sample := ⟨by decide, by decide, by decide⟩
theorem sample_wf : sample.mem.wf = true := by decide

theorem witness_DecodeInvertsEncode : opmap.wf = true := by decide

theorem witness_EncodeInvertsDecode : decodeWith opmap 0x8C240000#32 = .instr (.lw 1#5 4#5 0#16) := by decide

theorem witness_UnknownEncodingsAreTheRest :
    decodeWith opmap 0x70000001#32 = .unknownFunction 1#6 ∧ decodeWith opmap 0x6FFFFFFF#32 = .unknownOpcode 27#6 := by
  decide

/-- At both ends of the ROM. -/
theorem witness_StepRunsTheFetchedInstruction (p : Addr) (hp : p = 0x8000#32 ∨ p = 0xFFFF#32) :
    let s : State :=
      { State.reset with pc := p, stage := .running, mem := Memory.ofBytes (alignDown p 4) [0x20#8, 0x01#8, 0x00#8, 0x0A#8] }
    AtInstruction s ∧ 0x8000 ≤ s.pc.toNat ∧ s.pc.toNat ≤ 0xFFFF ∧
    decode (wordOfBytes (s.mem.read (alignDown s.pc 4)) (s.mem.read (alignDown s.pc 4 + 1))
      (s.mem.read (alignDown s.pc 4 + 2)) (s.mem.read (alignDown s.pc 4 + 3))) = .instr (.addi 0#5 1#5 10#16) := by
  rcases hp with rfl | rfl <;> exact ⟨⟨by decide, by decide, by decide⟩, by decide, by decide, by decide⟩

/-- The default OPMAP gives 0 to no opcode. -/
theorem witness_DegradedFetchRunsTheZeroWord (p : Addr) (hp : p = 1#32 ∨ p = 0x7FFF#32 ∨ p = 0x10000#32) :
    AtInstruction { State.reset with pc := p, stage := .running } ∧ (p.toNat < 0x8000 ∨ 0xFFFF < p.toNat) ∧
      0#6 ∉ State.reset.config.opmap.opcodes := by
  rcases hp with rfl | rfl | rfl <;> exact ⟨⟨by decide, by decide, by decide⟩, by decide, by decide⟩

theorem witness_UnknownEncodingIsANoOp :
    AtInstruction (start 0x65E0FFFF#32 [] []) ∧ decode (fetchedWord (start 0x65E0FFFF#32 [] [])) = .unknownOpcode 25#6 ∧
    AtInstruction (start 0x73FF4B90#32 [] []) ∧ decode (fetchedWord (start 0x73FF4B90#32 [] [])) = .unknownFunction 16#6 := by
  unfold AtInstruction
  decide

/-- An SB, an SW and an ADD about to execute. Also for StepNeverWritesOutsideRam. -/
theorem witness_StepChangesAtMost :
    AtInstruction sample ∧ step sample = .next (after sample) ∧ nextInstr sample = some (.sb 1#5 2#5 0#16) ∧
    (effectiveAddress sample 1#5 0#16).toNat < 0x7000 ∧ writtenRegs sample = [] ∧
    nextInstr (start 0xAC024001#32 [] []) = some (.sw 0#5 2#5 0x4001#16) ∧ writtenRegs (start 0x70221820#32 [] []) = [3#5] :=
  ⟨sample_at, rfl, by decide, by decide, by decide, by decide, by decide⟩

/-- The step that halts and a step that does not. -/
theorem witness_OnlyTheStopPortHalts :
    let h := start 0xA0027200#32 [(2#5, 0x99#16)] []
    AtInstruction h ∧ step h = .next (after h) ∧ stepResult (after h) = .halts ∧ AtInstruction sample ∧
      stepResult (after sample) = .continues :=
  ⟨⟨by decide, by decide, by decide⟩, rfl, by decide, sample_at, by decide⟩

/-- An unknown word, and registers equal and different. -/
theorem witness_DefaultPcRule :
    (∀ i, decode 0#32 ≠ .instr i) ∧ sample.reg 1#5 ≠ sample.reg 2#5 ∧ sample.reg 3#5 = sample.reg 4#5 := by
  have h : decode 0#32 = .unknownOpcode 0#6 := by decide
  refine ⟨fun i => ?_, by decide, by decide⟩
  rw [h]
  nofun

/-- The one step that changes the phase, and an event that does not. -/
theorem witness_PhaseChangesOnce :
    let s : State := { State.reset with stage := .running }
    happen .step s = .next { s with phase := .loop, stage := .betweenIterations } ∧ happen (.driveCtrl 1#8) s = .next { s with ctrl := 1#8 } :=
  ⟨rfl, rfl⟩

theorem witness_PhasesEndAtPcZero :
    let s : State := { State.reset with stage := .running }
    let l : State := { s with phase := .loop }
    let b : State := { l with stage := .betweenIterations, loopEntry := 0x8300#32 }
    (s.halted = false ∧ s.stage = .running ∧ s.pc = 0#32 ∧ s.phase = .setup) ∧
    (l.halted = false ∧ l.stage = .running ∧ l.pc = 0#32 ∧ l.phase = .loop) ∧
    (b.halted = false ∧ b.stage = .betweenIterations ∧ (after b).pc = 0x8300#32) := by
  decide

theorem witness_HaltIsForEver :
    let s : State := { State.reset with halted := true }
    s.halted = true ∧ happen (.supplyStdin [1#8]) s = .next { s with stdin := [1#8] } :=
  ⟨rfl, rfl⟩

/-- Reset meets the invariant. -/
theorem reset_inv : Inv State.reset where
  memCanonical := rfl
  zeroCell := rfl
  pcWidth := by decide
  readPosition := Nat.le_refl 0
  setupHasNoFrames := fun _ => rfl
  betweenIsLoop := nofun
  unstartedIsSetup := fun _ => rfl
  frameSize := nofun
  noMismatch := nofun

/-- A state that runs: the invariant holds and the step answers a next state. -/
theorem witness_StepKeepsTheInvariant : Inv sample ∧ step sample = .next (after sample) := by
  refine ⟨⟨sample_wf, by decide, by decide, by decide, fun _ => rfl, ?_, fun _ => rfl, ?_, ?_⟩, rfl⟩
  · intro h
    exact absurd h (by decide)
  · intro f hf
    exact absurd hf (by rw [show sample.frames = [] from rfl]; exact List.not_mem_nil)
  · intro d hd
    exact absurd hd (by rw [show sample.diaglog = [] from rfl]; exact List.not_mem_nil)

theorem witness_HistoryKeepsTheInvariant :
    Inv State.reset ∧ history [.supplyStdin [0x68#8], .driveCtrl 0x81#8, .step, .requestHalt] State.reset =
      .next { State.reset with stdin := [0x68#8], ctrl := 0x81#8, halted := true } :=
  ⟨reset_inv, rfl⟩

/-! For the statements by address: the regions at the ends of every range. -/

theorem witness_regions :
    region 0#32 = .ram ∧ region 0x6FFF#32 = .ram ∧ region 0x7000#32 = .ctrl ∧ region 0x7001#32 = .none ∧ region 0x70FF#32 = .none ∧
    region 0x7100#32 = .stdin ∧ region 0x7101#32 = .none ∧ region 0x7110#32 = .stdout ∧ region 0x7111#32 = .none ∧
    region 0x7120#32 = .stderr ∧ region 0x7121#32 = .none ∧ region 0x7200#32 = .stop ∧ region 0x7201#32 = .none ∧
    region 0x7FFF#32 = .none ∧ region 0x8000#32 = .rom ∧ region 0xFFFF#32 = .rom ∧ region 0x10000#32 = .none ∧
    region 0xFFFFFFFF#32 = .none := by
  decide

/-- Both cases of the input stream and the other clauses of the byte read (V-M9, V-M10). -/
theorem witness_ByteReadByAddress :
    let s : State := { State.reset with stdin := [0x68#8], ctrl := 0xA5#8, mem := [(0x6FFF, 1#8), (0x8000, 2#8), (0xFFFF, 3#8)] }
    (readByte 0x6FFF#32 s).1 = 1#8 ∧ (readByte 0x8000#32 s).1 = 2#8 ∧ (readByte 0xFFFF#32 s).1 = 3#8 ∧ (readByte 0x7000#32 s).1 = 0xA5#8 ∧
    s.stdin[s.stdinPos]? = some 0x68#8 ∧ (readByte 0x7100#32 s).2.stdinPos = 1 ∧ (readByte 0x7100#32 s).2.stdin[1]? = none ∧
    (readByte 0x10000#32 s).2.diaglog = [.permissionViolation 0x10000#32 .read .byte] := by
  decide

/-- The exhausted stream gives the open parameter. -/
theorem witness_ByteReadExhausted : readByte 0x7100#32 State.reset = (openStdinEof, State.reset) := rfl

/-- Parameters that give STDIN_EOF a value: the exhausted stream gives it. And input supplied to an exhausted stream is read next. -/
theorem witness_ByteReadParameterAndSupply :
    (readByte 0x7100#32 (State.resetWith { defaultConfig with stdinEof := some 0x1A#8 })).1 = 0x1A#8 ∧
    State.reset.stdinPos = State.reset.stdin.length ∧
    (readByte 0x7100#32 { State.reset with stdin := [0x68#8, 0x69#8] }).1 = 0x68#8 := by
  decide

/-- V-M6, V-M7, V-M8 and the last byte of RAM. -/
theorem witness_ByteWriteByAddress :
    (writeByte 0x6FFF#32 1#8 State.reset).1.mem = [(0x6FFF, 1#8)] ∧ (writeByte 0x7110#32 0x41#8 State.reset).1.stdout = [0x41#8] ∧
    (writeByte 0x7120#32 0x42#8 State.reset).1.stderr = [0x42#8] ∧ (writeByte 0x7200#32 0#8 State.reset).2 = true ∧
    (writeByte 0xFFFF#32 0xAA#8 State.reset).1.diaglog = [.permissionViolation 0xFFFF#32 .write .byte] ∧
    (writeByte 0x7000#32 0xAA#8 State.reset).1.diaglog = [.permissionViolation 0x7000#32 .write .byte] := by
  decide

/-- V-M5, V-LS24 and a port. -/
theorem witness_WordReadByAddress :
    (readWord 0x8000#32 { State.reset with mem := [(0x8000, 0x53#8), (0x8001, 0x4C#8)] }).1 = 0x534C#16 ∧
    (readWord 0x6FFF#32 { State.reset with mem := [(0x6FFE, 0xAB#8), (0x6FFF, 0xCD#8)] }).1 = 0xABCD#16 ∧
    (readWord 0x7000#32 State.reset).2.diaglog = [.permissionViolation 0x7000#32 .read .word] := by
  decide

/-- V-M1 in canonical storage, the last unit of RAM, and a port. -/
theorem witness_WordWriteByAddress :
    State.reset.mem.wf = true ∧ (writeWord 0x4000#32 0x5678#16 State.reset).mem = [(0x4000, 0x56#8), (0x4001, 0x78#8)] ∧
    (writeWord 0x6FFF#32 0x5678#16 State.reset).mem = [(0x6FFE, 0x56#8), (0x6FFF, 0x78#8)] ∧
    (writeWord 0x7200#32 1#16 State.reset).diaglog = [.permissionViolation 0x7200#32 .write .word] := by
  decide

/-- V-M3, V-M4, and the last unit of the ROM. -/
theorem witness_FetchByAddress :
    (readInstruction 0x8202#32 { State.reset with mem := Memory.ofBytes 0x8200 [0x20#8, 0x01#8, 0x00#8, 0x0A#8] }).1 = 0x2001000A#32 ∧
    (readInstruction 0xFFFF#32 { State.reset with mem := Memory.ofBytes 0xFFFC [0x20#8, 0x01#8, 0x00#8, 0x0A#8] }).1 = 0x2001000A#32 ∧
    (readInstruction 0x4000#32 State.reset).2.diaglog = [.permissionViolation 0x4000#32 .execute .instruction] := by
  decide

/-- Addresses that meet each clause of the rounding rule. -/
theorem witness_AccessesRoundDownToTheUnit :
    (0x6FFE#32).toNat % 2 = 0 ∧ region 0x6FFE#32 = .ram ∧ (0xFFFE#32).toNat % 2 = 0 ∧ region 0xFFFE#32 = .rom ∧
    (0xFFFC#32).toNat % 4 = 0 ∧ region 0xFFFC#32 = .rom ∧ (3#32).toNat < 4 := by
  decide

theorem witness_WidthsShareTheirBytes :
    State.reset.mem.wf = true ∧ (0x6FFE#32).toNat % 2 = 0 ∧ (0x6FFE#32).toNat < 0x7000 ∧ (0xFFFC#32).toNat % 4 = 0 ∧
    0x8000 ≤ (0xFFFC#32).toNat ∧ (0xFFFC#32).toNat ≤ 0xFFFF := by
  decide

/-- Each access refused somewhere and granted somewhere. -/
theorem witness_RefusedAccessesDegrade :
    granted 0x7110#32 .read .byte = false ∧ granted 0x7000#32 .read .word = false ∧ granted 0x6FFC#32 .execute .instruction = false ∧
    granted 0x8000#32 .write .byte = false ∧ granted 0x7110#32 .write .word = false ∧ granted 0x7000#32 .read .byte = true ∧
    granted 0xFFFF#32 .read .word = true ∧ granted 0x8000#32 .execute .instruction = true ∧ granted 0x7200#32 .write .byte = true ∧
    granted 0x6FFF#32 .write .word = true := by
  decide

/-- Both outcomes of a branch and of SLT have operands. -/
theorem witness_branches :
    sample.reg 3#5 = sample.reg 4#5 ∧ sample.reg 1#5 ≠ sample.reg 2#5 ∧ (sample.reg 2#5).toInt < (sample.reg 1#5).toInt := by
  decide

/-- For LBU, LW, SB and SW: operands whose effective address lies in each clause, at its ends. -/
theorem witness_load_and_store_clauses :
    (effectiveAddress sample 0#5 0#16).toNat = 0 ∧ (effectiveAddress sample 0#5 0x6FFF#16).toNat = 0x6FFF ∧
    (effectiveAddress sample 0#5 0x7000#16).toNat = 0x7000 ∧ (effectiveAddress sample 0#5 0x7100#16).toNat = 0x7100 ∧
    (effectiveAddress sample 0#5 0x7110#16).toNat = 0x7110 ∧ (effectiveAddress sample 0#5 0x7120#16).toNat = 0x7120 ∧
    (effectiveAddress sample 0#5 0x7200#16).toNat = 0x7200 ∧ (effectiveAddress sample 0#5 0x7FFF#16).toNat = 0x7FFF ∧
    (effectiveAddress sample 0#5 0x8000#16).toNat = 0x8000 ∧ (effectiveAddress sample 0#5 0xFFFF#16).toNat = 0xFFFF ∧
    (effectiveAddress sample 1#5 0xC000#16).toNat = 0x10000 := by
  decide

/-- For SbStoresTheLowByte and SwStoresTheRegister. -/
theorem witness_stores : sample.mem.wf = true ∧ (effectiveAddress sample 1#5 0#16).toNat < 0x7000 := ⟨sample_wf, by decide⟩

/-- A byte load from RAM and a word load from the ROM, off the guard. -/
theorem witness_LoadsOffTheirGuardReportNothing :
    let s := start 0x90230001#32 [] []
    let l := start 0x8C0381E2#32 [] []
    (AtInstruction s ∧ Guard.holds .pcAbove s = false ∧ Guard.holds .fetchFromRam s = false ∧ Guard.holds .fetchFromIoZone s = false ∧
      Guard.holds .degradedLoad s = false ∧ nextInstr s = some (.lbu 1#5 3#5 1#16)) ∧
    (AtInstruction l ∧ Guard.holds .pcAbove l = false ∧ Guard.holds .fetchFromRam l = false ∧ Guard.holds .fetchFromIoZone l = false ∧
      Guard.holds .degradedLoad l = false ∧ nextInstr l = some (.lw 0#5 3#5 0x81E2#16)) :=
  ⟨⟨⟨by decide, by decide, by decide⟩, by decide, by decide, by decide, by decide, by decide⟩,
    ⟨⟨by decide, by decide, by decide⟩, by decide, by decide, by decide, by decide, by decide⟩⟩

/-- Counts and bits at the ends of both ranges. -/
theorem witness_ShiftsBitByBit :
    shiftLeft 1#16 15 = 0x8000#16 ∧ shiftLeft 0xFFFF#16 31 = 0#16 ∧ shiftRight 0x8000#16 15 = 1#16 ∧ shiftRight 0xFFFF#16 16 = 0#16 ∧
    shiftRightSigned 0x8000#16 31 = 0xFFFF#16 ∧ shiftRightSigned 0x7FFF#16 15 = 0#16 ∧ shiftRightSigned 0x8000#16 0 = 0x8000#16 := by
  decide

/-- Also for MountIsIdempotent, with `reset_inv` for the canonical form. -/
theorem witness_MountPlacesTheImage :
    (image 0#8 8#8).length = 32768 ∧ relocationFits (image 0#8 8#8) = true ∧
    ∃ t, mountRom (image 0#8 8#8) State.reset = .next t ∧ t.setupEntry = 0x8200#32 ∧ t.stage = .mounted :=
  have hf : relocationFits (image 0#8 8#8) = true := by decide +kernel
  ⟨image_length _ _, hf, _, mountRom_of_fits (image_length _ _) hf, by decide +kernel, rfl⟩

/-- A block that ends exactly at the end of the RAM still fits; one byte more does not. -/
theorem witness_BadImagesAreRefused :
    (([] : List Byte).length ≠ 32768) ∧ (image 0x6F#8 1#8).length = 32768 ∧
    0x7000 < (be32At (image 0x6F#8 1#8) 0x1EC).toNat + (be32At (image 0x6F#8 1#8) 0x1F0).toNat ∧
    relocationFits (image 0x6F#8 0#8) = true :=
  ⟨by decide, image_length _ _, by decide +kernel, by decide +kernel⟩

theorem witness_StartEntersSetup :
    State.reset.stage = .constructed ∧ ({ State.reset with stage := .mounted } : State).stage = .mounted ∧ sample.stage ≠ .mounted := by
  decide

/-- The pc of S1 fits either width. -/
theorem witness_RestoreOfSnapshotReproduces : (0x8228#32 : Addr).toNat < 2 ^ AddrWidth.bits16.bits := by decide

/-- A blob of the right length with a byte set in the register 0 it must ignore, and one of a wrong length. -/
theorem witness_RestoreTakesWholeBlobsOnly :
    ([0#8, 0#8, 0x82#8, 0x28#8, 0xFF#8, 0xFF#8, 0x12#8, 0x34#8] ++ List.replicate 65596 0#8 : List Byte).length = 65604 ∧
    ([0#8] : List Byte).length ≠ 65604 := by
  constructor
  · simp only [List.length_append, List.length_replicate, List.length_cons, List.length_nil]
  · decide

end Sys2Proof.Tests
end

section
/-! PROOFS. The family 10_state.md: the invariant is kept by each operation on the state, hence by each part of a step (O19, O18); the
phase and the halt over all events (O14, O16); the state after reset (O17). -/

namespace Sys2Proof.Machine

open Sys2Proof.Safety

/-! ### What a step can do, on top of the inversions of Laws/Ops.lean -/

/-- A fetch is an access like any other: nothing, or the diagnostic of 20_memory.md R48. -/
theorem readInstruction_access (a : Addr) (s : State) : Access s (readInstruction a s).2 := by
  rcases readInstruction_cases a s with ⟨-, h⟩ | ⟨-, h⟩
  · rw [h]; exact .nothing
  · rw [h]; exact .violation a _ _

/-- An instruction step is a fetch, then either a data access and the end of an instruction, or the report of an unknown encoding and
the default PC rule (R91, R94). -/
theorem instructionStep_inversion (s : State) :
    ∃ f, Access s f ∧
      ((∃ u r v p h, Access f u ∧ instructionStep s = .next (ended u r v p h)) ∨
        ∃ d, isMismatch d = false ∧ instructionStep s = .next (f.report d).advancePc) := by
  let f := readInstruction s.pc s
  refine ⟨f.2, readInstruction_access s.pc s, ?_⟩
  rcases runDecoded_inversion (decodeWith s.config.opmap f.1) f.1 f.2 with ⟨i, -, h⟩ | ⟨op, -, h⟩ | ⟨fn, -, h⟩
  · obtain ⟨u, r, v, p, b, hu, hi⟩ := exec_inversion i f.2
    exact .inl ⟨u, r, v, p, b, hu, h.trans hi⟩
  · exact .inr ⟨_, rfl, h⟩
  · exact .inr ⟨_, rfl, h⟩

theorem step_of_halted {s : State} (h : s.halted = true) : step s = .next s := by
  simp [step, engineStep, h]

theorem step_at_pc_zero {s : State} (hh : s.halted = false) (hs : s.stage = .running) (hp : s.pc = 0#32) :
    step s = .next (endPhase s) := by
  simp [step, engineStep, hh, hs, hp]

theorem endPhase_of_setup {s : State} (h : s.phase = .setup) :
    endPhase s = { s with phase := .loop, stage := .betweenIterations } := by
  simp [endPhase, h]

theorem endPhase_of_loop {s : State} (h : s.phase = .loop) :
    endPhase s = { s with frames := s.frames ++ [renderEvent s], stage := .betweenIterations } := by
  simp [endPhase, h]

/-- A frame holds the whole video window (20_memory.md R57). -/
theorem renderEvent_length (s : State) : (renderEvent s).pixels.length = vramSize := by
  rw [renderEvent, Memory.window_length]

/-! ### The engine's control state -/

/-- No access touches the engine's control state or the parameters. -/
theorem Access.sameEngine {s t : State} (h : Access s t) : SameEngine s t := by
  cases h <;> exact ⟨rfl, rfl, rfl, rfl, rfl⟩

theorem ended_sameEngine (s : State) (r : RegIdx) (v : Word) (p : Addr) (h : Bool) : SameEngine s (ended s r v p h) := by
  cases h <;> exact ⟨rfl, rfl, rfl, rfl, rfl⟩

theorem sameEngine_trans {s t u : State} (h : SameEngine s t) (h' : SameEngine t u) : SameEngine s u := by
  obtain ⟨h1, h2, h3, h4, h5⟩ := h
  obtain ⟨h1', h2', h3', h4', h5'⟩ := h'
  exact ⟨h1'.trans h1, h2'.trans h2, h3'.trans h3, h4'.trans h4, h5'.trans h5⟩

theorem instructionStep_sameEngine {s t : State} (h : instructionStep s = .next t) : SameEngine s t := by
  obtain ⟨f, hf, ⟨u, r, v, p, b, hu, hi⟩ | ⟨d, -, hi⟩⟩ := instructionStep_inversion s <;> cases hi.symm.trans h
  · exact sameEngine_trans hf.sameEngine (sameEngine_trans hu.sameEngine (ended_sameEngine ..))
  · exact sameEngine_trans hf.sameEngine ⟨rfl, rfl, rfl, rfl, rfl⟩

/-- The end of a phase leaves the parameters and ends in Loop. -/
theorem endPhase_config_phase (s : State) : (endPhase s).config = s.config ∧ (endPhase s).phase = .loop := by
  cases h : s.phase
  · rw [endPhase_of_setup h]; exact ⟨rfl, rfl⟩
  · rw [endPhase_of_loop h]; exact ⟨rfl, h⟩

/-- No step changes the parameters (log entry 31). -/
theorem step_config {s t : State} (h : step s = .next t) : t.config = s.config := by
  rcases step_cases s with ⟨-, hs⟩ | ⟨-, -, hs⟩ | ⟨-, -, hs⟩ | ⟨-, -, -, hs⟩ | ⟨-, -, -, hs⟩ <;> rw [hs] at h
  · cases h; rfl
  · cases h; rfl
  · cases h; rfl
  · cases h; exact (endPhase_config_phase s).1
  · obtain ⟨-, -, -, -, hc⟩ := instructionStep_sameEngine h
    exact hc

/-- A step changes the phase only where it ends Setup (R101). -/
theorem step_phase {s t : State} (h : step s = .next t) :
    t.phase = s.phase ∨ (s.phase = .setup ∧ s.pc = 0#32 ∧ t.phase = .loop) := by
  rcases step_cases s with ⟨-, hs⟩ | ⟨-, -, hs⟩ | ⟨-, -, hs⟩ | ⟨-, -, hp, hs⟩ | ⟨-, -, -, hs⟩ <;> rw [hs] at h
  · cases h; exact .inl rfl
  · cases h; exact .inl rfl
  · cases h; exact .inl rfl
  · cases h
    have ht := (endPhase_config_phase s).2
    cases hphase : s.phase
    · exact .inr ⟨rfl, hp, ht⟩
    · exact .inl ht
  · exact .inl (instructionStep_sameEngine h).1

/-! ### The host's actions -/

/-- No action of the host touches the phase or ends a halt. -/
theorem hostAction_phase_halted {e : Event} {s t : State} (he : e ≠ .step) (h : happen e s = .next t) :
    t.phase = s.phase ∧ (s.halted = true → t.halted = true) := by
  cases e with
  | step => exact absurd rfl he
  | mountRom rom => obtain ⟨-, -, rfl⟩ := mountRom_next h; exact ⟨rfl, id⟩
  | start => obtain ⟨-, rfl⟩ := start_next h; exact ⟨rfl, id⟩
  | driveCtrl v => cases h; exact ⟨rfl, id⟩
  | supplyStdin bytes => cases h; exact ⟨rfl, id⟩
  | requestHalt => cases h; exact ⟨rfl, fun _ => rfl⟩
  | restore blob => obtain ⟨-, rfl⟩ := restore_next h; exact ⟨rfl, id⟩

end Sys2Proof.Machine

/-! ### The invariant under each operation on the state -/

namespace Sys2Proof.Safety

open Sys2Proof.Machine

namespace Inv

theorem resetWith (c : Config) : Inv (State.resetWith c) where
  memCanonical := Memory.wf_filled c.memReset
  zeroCell := State.resetWith_zeroCell c
  pcWidth := Nat.two_pow_pos _
  readPosition := Nat.le_refl 0
  setupHasNoFrames _ := rfl
  betweenIsLoop := nofun
  unstartedIsSetup _ := rfl
  frameSize := nofun
  noMismatch := nofun

variable {s t : State}

theorem setReg (hs : Inv s) (i : RegIdx) (v : Word) : Inv (s.setReg i v) :=
  { hs with zeroCell := (s.setReg_zeroCell i v).trans hs.zeroCell }

theorem setPc (hs : Inv s) (a : Addr) : Inv (s.setPc a) :=
  { hs with pcWidth := narrow_lt _ a }

theorem halt (hs : Inv s) : Inv s.halt := { hs with }

/-- Any event but the unreachable one may be reported. -/
theorem report (hs : Inv s) {d : Diag} (hd : isMismatch d = false) : Inv (s.report d) :=
  { hs with noMismatch := List.forall_mem_append.mpr ⟨hs.noMismatch, List.forall_mem_singleton.mpr hd⟩ }

theorem storeByte (hs : Inv s) {a : Nat} (ha : a < memSize) (b : Byte) : Inv (s.storeByte a b) :=
  { hs with memCanonical := Memory.wf_write hs.memCanonical ha }

theorem access (hs : Inv s) (h : Access s t) : Inv t := by
  have inside {a : Nat} (ha : a < 0x7000) : a < memSize := by unfold memSize; omega
  cases h with
  | nothing => exact hs
  | consume h => exact { hs with readPosition := h }
  | violation a k w => exact hs.report rfl
  | stdout b => exact { hs with }
  | stderr b => exact { hs with }
  | byte a b h => exact hs.storeByte (inside h) b
  | word a b b' h => exact (hs.storeByte (inside (Nat.lt_of_succ_lt h)) b).storeByte (inside h) b'

theorem ended (hs : Inv s) (r : RegIdx) (v : Word) (p : Addr) (h : Bool) : Inv (ended s r v p h) :=
  have hu := (hs.setReg r v).setPc p
  match h with
  | false => hu
  | true => hu.halt

theorem instructionStep (hs : Inv s) (h : instructionStep s = .next t) : Inv t := by
  obtain ⟨f, hf, ⟨u, r, v, p, b, hu, hi⟩ | ⟨d, hd, hi⟩⟩ := instructionStep_inversion s <;> cases hi.symm.trans h
  · exact ((hs.access hf).access hu).ended r v p b
  · exact ((hs.access hf).report hd).setPc _

/-- The iteration's start leaves the stages that constrain the phase. -/
theorem beginIteration (hs : Inv s) : Inv (beginIteration s) :=
  { hs.setPc s.loopEntry with betweenIsLoop := nofun, unstartedIsSetup := nofun }

/-- Setup hands over to Loop; Loop, where frames are allowed, adds one of full size. -/
theorem endPhase (hs : Inv s) : Inv (endPhase s) := by
  cases h : s.phase with
  | setup =>
    rw [endPhase_of_setup h]
    exact { hs with setupHasNoFrames := nofun, betweenIsLoop := fun _ => rfl, unstartedIsSetup := nofun }
  | loop =>
    rw [endPhase_of_loop h]
    have notSetup {p : Prop} (hp : s.phase = .setup) : p := nomatch h.symm.trans hp
    exact { hs with
      setupHasNoFrames := notSetup
      betweenIsLoop := fun _ => h
      unstartedIsSetup := nofun
      frameSize := List.forall_mem_append.mpr ⟨hs.frameSize, List.forall_mem_singleton.mpr (renderEvent_length s)⟩ }

theorem step (hs : Inv s) (h : step s = .next t) : Inv t := by
  rcases step_cases s with ⟨-, hc⟩ | ⟨-, -, hc⟩ | ⟨-, -, hc⟩ | ⟨-, -, -, hc⟩ | ⟨-, -, -, hc⟩ <;> rw [hc] at h
  · cases h; exact hs
  · cases h; exact hs
  · cases h; exact hs.beginIteration
  · cases h; exact hs.endPhase
  · exact hs.instructionStep h

end Inv

end Sys2Proof.Safety

/-! ### The obligations -/

namespace Sys2Proof.Proofs

open Sys2Proof.Machine Sys2Proof.Safety

/-- Settles O19: a step is one of five things, and each of them is made of operations that keep the invariant. -/
theorem stepKeepsTheInvariant : Obligations.StepKeepsTheInvariant :=
  fun _ _ hs h => ⟨hs.step h, step_config h⟩

/-- Settles O14: only the step's move at pc = 0 touches the phase; the snapshot is made of pc, registers and storage. -/
theorem phaseChangesOnce : Obligations.PhaseChangesOnce := by
  refine ⟨rfl, fun e s t h => ?_, fun s hh hs hp _ => ?_, fun s p => rfl⟩
  · by_cases he : e = .step
    · subst he
      exact (step_phase h).imp_right fun hsetup => ⟨rfl, hsetup⟩
    · exact .inl (hostAction_phase_halted he h).1
  · exact ⟨endPhase s, step_at_pc_zero hh hs hp, (endPhase_config_phase s).2⟩

/-- Settles O16: a halted step is a stutter (R22), and no action of the host clears `halted`. -/
theorem haltIsForEver : Obligations.HaltIsForEver := by
  refine ⟨fun s hs => ⟨step_of_halted hs, fun e t h => ?_⟩, fun s => ⟨rfl, step_of_halted rfl⟩⟩
  by_cases he : e = .step
  · subst he
    cases (step_of_halted hs).symm.trans h
    exact hs
  · exact (hostAction_phase_halted he h).2 hs

/-- Settles O17: the register file and the storage by their read laws, the other fields and the default record by their values. -/
theorem resetState : Obligations.ResetState :=
  ⟨fun c => ⟨State.resetWith_reg c, fun _ ha => Memory.read_filled c.memReset ha,
    rfl, rfl, rfl, rfl, rfl, rfl, rfl, rfl, rfl, rfl⟩, rfl, rfl, rfl, rfl, rfl⟩

/-- Settles O18. -/
theorem resetMeetsTheInvariant : Obligations.ResetMeetsTheInvariant :=
  ⟨Inv.resetWith defaultConfig, Inv.resetWith⟩

end Sys2Proof.Proofs
end

section
/-! PROOFS. The family 20_memory.md: the map by address, one lemma per access and outcome, the rounding to a unit, what a write of a
unit reads back as (O22 to O30); and that no step writes storage outside the RAM (O11). -/

namespace Sys2Proof.Machine

variable {a k : Addr} {s t : State}

/-! ### The map by address (20_memory.md R34) -/

theorem region_ram_iff : region a = .ram ↔ a.toNat < 0x7000 := ⟨lt_of_region_ram, region_ram⟩

theorem region_rom_iff : region a = .rom ↔ 0x8000 ≤ a.toNat ∧ a.toNat ≤ 0xFFFF :=
  ⟨bounds_of_region_rom, fun ⟨hl, hu⟩ => region_rom hl hu⟩

theorem region_ctrl_iff : region a = .ctrl ↔ a.toNat = 0x7000 := by
  unfold region; split_ifs <;> simp <;> omega

theorem region_stdin_iff : region a = .stdin ↔ a.toNat = 0x7100 := by
  unfold region; split_ifs <;> simp <;> omega

theorem region_stdout_iff : region a = .stdout ↔ a.toNat = 0x7110 := by
  unfold region; split_ifs <;> simp <;> omega

theorem region_stderr_iff : region a = .stderr ↔ a.toNat = 0x7120 := by
  unfold region; split_ifs <;> simp <;> omega

theorem region_stop_iff : region a = .stop ↔ a.toNat = 0x7200 := by
  unfold region; split_ifs <;> simp <;> omega

/-- The addresses of plain storage. -/
theorem storage_iff :
    (region a = .ram ∨ region a = .rom) ↔ a.toNat < 0x7000 ∨ (0x8000 ≤ a.toNat ∧ a.toNat ≤ 0xFFFF) := by
  rw [region_ram_iff, region_rom_iff]

/-! ### Where the permission check grants each access (R35, R52) -/

theorem granted_read_byte_iff :
    granted a .read .byte = true ↔ (region a = .ram ∨ region a = .rom) ∨ region a = .ctrl ∨ region a = .stdin := by
  unfold granted; cases region a <;> decide

theorem granted_read_word_iff : granted a .read .word = true ↔ region a = .ram ∨ region a = .rom := by
  unfold granted; cases region a <;> decide

theorem granted_execute_iff : granted a .execute .instruction = true ↔ region a = .rom := by
  unfold granted; cases region a <;> decide

theorem granted_write_byte_iff :
    granted a .write .byte = true ↔
      region a = .ram ∨ region a = .stdout ∨ region a = .stderr ∨ region a = .stop := by
  unfold granted; cases region a <;> decide

theorem granted_write_word_iff : granted a .write .word = true ↔ region a = .ram := by
  unfold granted; cases region a <;> decide

/-! ### The byte accesses (R44, R45) -/

theorem takeStdin_of_some {b : Byte} (h : s.stdin[s.stdinPos]? = some b) :
    s.takeStdin = (b, { s with stdinPos := s.stdinPos + 1 }) := by
  simp only [State.takeStdin, h]

theorem takeStdin_of_none (h : s.stdin[s.stdinPos]? = none) : s.takeStdin = (s.stdinEof, s) := by
  simp only [State.takeStdin, h]

theorem takeStdin_diaglog (s : State) : s.takeStdin.2.diaglog = s.diaglog := by
  unfold State.takeStdin; split <;> rfl

theorem readByte_of_storage (h : region a = .ram ∨ region a = .rom) : readByte a s = (s.mem.read a.toNat, s) := by
  rcases h with h | h <;> simp only [readByte, h]

theorem readByte_of_ctrl (h : region a = .ctrl) : readByte a s = (s.ctrl, s) := by simp only [readByte, h]

theorem readByte_of_stdin (h : region a = .stdin) : readByte a s = s.takeStdin := by simp only [readByte, h]

theorem readByte_of_refused (h : ¬granted a .read .byte = true) : readByte a s = (0#8, s.violation a .read .byte) := by
  unfold readByte
  cases hr : region a
  case stdout | stderr | stop | none => rfl
  all_goals exact absurd (granted_read_byte_iff.mpr (by simp [hr])) h

theorem writeByte_of_ram {v : Byte} (h : region a = .ram) : writeByte a v s = (s.storeByte a.toNat v, false) := by
  simp only [writeByte, h]

theorem writeByte_of_stdout {v : Byte} (h : region a = .stdout) : writeByte a v s = (s.emitStdout v, false) := by
  simp only [writeByte, h]

theorem writeByte_of_stderr {v : Byte} (h : region a = .stderr) : writeByte a v s = (s.emitStderr v, false) := by
  simp only [writeByte, h]

theorem writeByte_of_stop {v : Byte} (h : region a = .stop) : writeByte a v s = (s, true) := by
  simp only [writeByte, h]

theorem writeByte_of_refused {v : Byte} (h : ¬granted a .write .byte = true) :
    writeByte a v s = (s.violation a .write .byte, false) := by
  unfold writeByte
  cases hr : region a
  case ctrl | stdin | rom | none => rfl
  all_goals exact absurd (granted_write_byte_iff.mpr (by simp [hr])) h

/-! ### The word accesses and the fetch (R46 to R48) -/

theorem readWord_of_storage (h : region a = .ram ∨ region a = .rom) :
    readWord a s = (s.mem.read (alignDown a 2) ++ s.mem.read (alignDown a 2 + 1), s) := by
  rcases h with h | h <;> simp only [readWord, h]

theorem readWord_of_refused (h : ¬granted a .read .word = true) : readWord a s = (0#16, s.violation a .read .word) := by
  unfold readWord
  cases hr : region a
  case ctrl | stdin | stdout | stderr | stop | none => rfl
  all_goals exact absurd (granted_read_word_iff.mpr (by simp [hr])) h

theorem writeWord_of_ram {v : Word} (h : region a = .ram) :
    writeWord a v s =
      (s.storeByte (alignDown a 2) (v.extractLsb' 8 8)).storeByte (alignDown a 2 + 1) (v.extractLsb' 0 8) := by
  simp only [writeWord, h]

theorem writeWord_of_refused {v : Word} (h : ¬granted a .write .word = true) :
    writeWord a v s = s.violation a .write .word := by
  unfold writeWord
  cases hr : region a
  case ctrl | stdin | stdout | stderr | stop | rom | none => rfl
  all_goals exact absurd (granted_write_word_iff.mpr (by simp [hr])) h

theorem readInstruction_of_rom (h : region a = .rom) :
    readInstruction a s =
      (wordOfBytes (s.mem.read (alignDown a 4)) (s.mem.read (alignDown a 4 + 1))
        (s.mem.read (alignDown a 4 + 2)) (s.mem.read (alignDown a 4 + 3)), s) := by
  simp only [readInstruction, h]

theorem readInstruction_of_refused (h : ¬granted a .execute .instruction = true) :
    readInstruction a s = (0#32, s.violation a .execute .instruction) := by
  rcases readInstruction_cases a s with ⟨hr, -⟩ | ⟨-, hv⟩
  · exact absurd (granted_execute_iff.mpr hr) h
  · exact hv

/-! ### A granted access reports nothing (R35) -/

theorem readByte_diaglog_of_granted (h : granted a .read .byte = true) : (readByte a s).2.diaglog = s.diaglog := by
  rcases granted_read_byte_iff.mp h with hr | hr | hr
  · rw [readByte_of_storage hr]
  · rw [readByte_of_ctrl hr]
  · rw [readByte_of_stdin hr, takeStdin_diaglog]

theorem writeByte_diaglog_of_granted {v : Byte} (h : granted a .write .byte = true) :
    (writeByte a v s).1.diaglog = s.diaglog := by
  rcases granted_write_byte_iff.mp h with hr | hr | hr | hr
  · rw [writeByte_of_ram hr, State.storeByte_diaglog]
  · rw [writeByte_of_stdout hr, State.emitStdout_diaglog]
  · rw [writeByte_of_stderr hr, State.emitStderr_diaglog]
  · rw [writeByte_of_stop hr]

theorem readWord_diaglog_of_granted (h : granted a .read .word = true) : (readWord a s).2.diaglog = s.diaglog := by
  rw [readWord_of_storage (granted_read_word_iff.mp h)]

theorem writeWord_diaglog_of_ram {v : Word} (h : region a = .ram) : (writeWord a v s).diaglog = s.diaglog := by
  rw [writeWord_of_ram h, State.storeByte_diaglog, State.storeByte_diaglog]

theorem readInstruction_diaglog_of_granted (h : granted a .execute .instruction = true) :
    (readInstruction a s).2.diaglog = s.diaglog := by
  rw [readInstruction_of_rom (granted_execute_iff.mp h)]

/-! ### Addresses of one unit (R51): the units are 2 or 4 bytes, and no region of storage ends inside one (R33) -/

/-- Inside an aligned unit the address does not wrap. -/
theorem toNat_add_of_aligned {n : Nat} (hn : n = 2 ∨ n = 4) (ha : a.toNat % n = 0) (hk : k.toNat < n) :
    (a + k).toNat = a.toNat + k.toNat :=
  BitVec.toNat_add_of_lt (by have := a.isLt; rcases hn with rfl | rfl <;> omega)

theorem alignDown_of_aligned {n : Nat} (ha : a.toNat % n = 0) : alignDown a n = a.toNat := by
  rw [alignDown, ha, Nat.sub_zero]

theorem alignDown_add_of_aligned {n : Nat} (hn : n = 2 ∨ n = 4) (ha : a.toNat % n = 0) (hk : k.toNat < n) :
    alignDown (a + k) n = alignDown a n := by
  rw [alignDown_of_aligned ha, alignDown, toNat_add_of_aligned hn ha hk]
  rcases hn with rfl | rfl <;> omega

theorem region_ram_add_of_aligned {n : Nat} (hn : n = 2 ∨ n = 4) (ha : a.toNat % n = 0) (hk : k.toNat < n) :
    region (a + k) = .ram ↔ region a = .ram := by
  rw [region_ram_iff, region_ram_iff, toNat_add_of_aligned hn ha hk]
  rcases hn with rfl | rfl <;> omega

theorem region_rom_add_of_aligned {n : Nat} (hn : n = 2 ∨ n = 4) (ha : a.toNat % n = 0) (hk : k.toNat < n) :
    region (a + k) = .rom ↔ region a = .rom := by
  rw [region_rom_iff, region_rom_iff, toNat_add_of_aligned hn ha hk]
  rcases hn with rfl | rfl <;> omega

theorem region_ram_add_one (ha : a.toNat % 2 = 0) : region (a + 1#32) = .ram ↔ region a = .ram :=
  region_ram_add_of_aligned (.inl rfl) ha (by decide)

theorem storage_add_one (ha : a.toNat % 2 = 0) :
    (region (a + 1#32) = .ram ∨ region (a + 1#32) = .rom) ↔ region a = .ram ∨ region a = .rom :=
  or_congr (region_ram_add_one ha) (region_rom_add_of_aligned (.inl rfl) ha (by decide))

theorem readWord_add_one_of_storage (ha : a.toNat % 2 = 0) (h : region a = .ram ∨ region a = .rom) :
    readWord (a + 1#32) s = readWord a s := by
  rw [readWord_of_storage h, readWord_of_storage ((storage_add_one ha).mpr h),
    alignDown_add_of_aligned (.inl rfl) ha (by decide)]

/-- Off storage both reads are degraded; the diagnostics differ, each with the address as given. -/
theorem readWord_value_add_one (ha : a.toNat % 2 = 0) : (readWord (a + 1#32) s).1 = (readWord a s).1 := by
  by_cases h : region a = .ram ∨ region a = .rom
  · rw [readWord_add_one_of_storage ha h]
  · have h' := mt (storage_add_one ha).mp h
    rw [← granted_read_word_iff] at h h'
    rw [readWord_of_refused h, readWord_of_refused h']

theorem writeWord_add_one_of_ram {v : Word} (ha : a.toNat % 2 = 0) (h : region a = .ram) :
    writeWord (a + 1#32) v s = writeWord a v s := by
  rw [writeWord_of_ram h, writeWord_of_ram ((region_ram_add_one ha).mpr h),
    alignDown_add_of_aligned (.inl rfl) ha (by decide)]

theorem readInstruction_add_of_rom (ha : a.toNat % 4 = 0) (hk : k.toNat < 4) (h : region a = .rom) :
    readInstruction (a + k) s = readInstruction a s := by
  rw [readInstruction_of_rom h, readInstruction_of_rom ((region_rom_add_of_aligned (.inr rfl) ha hk).mpr h),
    alignDown_add_of_aligned (.inr rfl) ha hk]

theorem readInstruction_word_add (ha : a.toNat % 4 = 0) (hk : k.toNat < 4) :
    (readInstruction (a + k) s).1 = (readInstruction a s).1 := by
  by_cases h : region a = .rom
  · rw [readInstruction_add_of_rom ha hk h]
  · have h' := mt (region_rom_add_of_aligned (.inr rfl) ha hk).mp h
    rw [← granted_execute_iff] at h h'
    rw [readInstruction_of_refused h, readInstruction_of_refused h']

/-! ### Bytes and values (R46, R49: the byte at the lower address is the more significant) -/

theorem toNat_append_bits {m n : Nat} (x : BitVec m) (y : BitVec n) : (x ++ y).toNat = x.toNat * 2 ^ n + y.toNat := by
  rw [BitVec.toNat_append, ← Nat.shiftLeft_add_eq_or_of_lt y.isLt, Nat.shiftLeft_eq]

theorem wordOfBytes_toNat (b0 b1 b2 b3 : Byte) :
    (wordOfBytes b0 b1 b2 b3).toNat = b0.toNat * 2 ^ 24 + b1.toNat * 2 ^ 16 + b2.toNat * 2 ^ 8 + b3.toNat := by
  simp only [wordOfBytes, toNat_append_bits]
  omega

theorem highByte_toNat (v : Word) : (v.extractLsb' 8 8).toNat = v.toNat / 256 := by
  rw [BitVec.extractLsb'_toNat, Nat.shiftRight_eq_div_pow]
  have := v.isLt
  omega

theorem lowByte_toNat (v : Word) : (v.extractLsb' 0 8).toNat = v.toNat % 256 := by
  rw [BitVec.extractLsb'_toNat, Nat.shiftRight_zero]

theorem wordOfBytes_eq_append (b0 b1 b2 b3 : Byte) : wordOfBytes b0 b1 b2 b3 = (b0 ++ b1 : Word) ++ (b2 ++ b3 : Word) := by
  apply BitVec.eq_of_toNat_eq
  simp only [wordOfBytes, toNat_append_bits]
  omega

/-! ### A unit of two bytes, written high byte first -/

/-- The storage after both bytes of a unit were written. -/
def Memory.writeUnit (m : Memory) (u : Nat) (hi lo : Byte) : Memory := (m.write u hi).write (u + 1) lo

namespace Memory

variable {m : Memory} {u : Nat} {hi lo : Byte}

theorem wf_writeUnit (h : m.wf = true) (hu : u + 1 < memSize) : (m.writeUnit u hi lo).wf = true :=
  wf_write (wf_write h (by omega)) hu

theorem read_writeUnit_high (h : m.wf = true) : (m.writeUnit u hi lo).read u = hi := by
  rw [writeUnit, read_write_of_ne (by omega), read_write_self h]

theorem read_writeUnit_low (h : m.wf = true) (hu : u + 1 < memSize) : (m.writeUnit u hi lo).read (u + 1) = lo :=
  read_write_self (wf_write h (by omega))

theorem read_writeUnit_of_ne {x : Nat} (hx : x ≠ u) (hx' : x ≠ u + 1) : (m.writeUnit u hi lo).read x = m.read x := by
  rw [writeUnit, read_write_of_ne hx', read_write_of_ne hx]

end Memory

theorem writeWord_eq_writeUnit {v : Word} (h : region a = .ram) :
    writeWord a v s = { s with mem := s.mem.writeUnit (alignDown a 2) (v.extractLsb' 8 8) (v.extractLsb' 0 8) } :=
  writeWord_of_ram h

/-- Two byte writes store what one word write stores (R50). -/
theorem writeByte_pair_eq_writeUnit {hi lo : Byte} (ha : a.toNat % 2 = 0) (h : region a = .ram) :
    (writeByte (a + 1#32) lo (writeByte a hi s).1).1 = { s with mem := s.mem.writeUnit a.toNat hi lo } := by
  rw [writeByte_of_ram h, writeByte_of_ram ((region_ram_add_one ha).mpr h), toNat_add_of_aligned (.inl rfl) ha (by decide)]
  rfl

/-- A fetched word is the two words of its halves (R49, R50). -/
theorem readInstruction_eq_append_readWord (ha : a.toNat % 4 = 0) (h : region a = .rom) :
    (readInstruction a s).1 = (readWord a s).1 ++ (readWord (a + 2#32) s).1 := by
  have hadd : (a + 2#32).toNat = a.toNat + 2 := toNat_add_of_aligned (.inr rfl) ha (by decide)
  have h' : region (a + 2#32) = .rom := (region_rom_add_of_aligned (.inr rfl) ha (by decide)).mpr h
  rw [readInstruction_of_rom h, readWord_of_storage (.inr h), readWord_of_storage (.inr h'), alignDown_of_aligned ha,
    alignDown_of_aligned (n := 2) (by omega), alignDown_of_aligned (n := 2) (by omega), hadd]
  exact wordOfBytes_eq_append ..

/-! ### No step writes storage outside the RAM (R43, R62) -/

theorem Access.read_outside_ram {x : Nat} (h : Access s t) (hx : 0x7000 ≤ x) : t.mem.read x = s.mem.read x := by
  cases h with
  | nothing | consume | violation | stdout | stderr => rfl
  | byte n b hn => exact Memory.read_write_of_ne (by omega)
  | word n b b' hn => exact Memory.read_writeUnit_of_ne (by omega) (by omega)

theorem ended_mem (s : State) (r : RegIdx) (v : Word) (p : Addr) (h : Bool) : (ended s r v p h).mem = s.mem := by
  cases h <;> rfl

theorem endPhase_mem (s : State) : (endPhase s).mem = s.mem := by
  cases h : s.phase
  · rw [endPhase_of_setup h]
  · rw [endPhase_of_loop h]

theorem instructionStep_read_outside_ram {x : Nat} (h : instructionStep s = .next t) (hx : 0x7000 ≤ x) :
    t.mem.read x = s.mem.read x := by
  obtain ⟨f, hf, ⟨u, r, v, p, b, hu, hi⟩ | ⟨d, -, hi⟩⟩ := instructionStep_inversion s <;> cases hi.symm.trans h
  · rw [ended_mem, hu.read_outside_ram hx, hf.read_outside_ram hx]
  · exact hf.read_outside_ram hx

end Sys2Proof.Machine

/-! ### The obligations -/

namespace Sys2Proof.Proofs

open Sys2Proof.Machine

/-- Settles O11: of the five things a step can be, only an instruction accesses storage, and its accesses write RAM alone. -/
theorem stepNeverWritesOutsideRam : Obligations.StepNeverWritesOutsideRam := by
  intro s t x h hx
  rcases step_cases s with ⟨-, hs⟩ | ⟨-, -, hs⟩ | ⟨-, -, hs⟩ | ⟨-, -, -, hs⟩ | ⟨-, -, -, hs⟩ <;> rw [hs] at h
  · cases h; rfl
  · cases h; rfl
  · cases h; rfl
  · cases h; rw [endPhase_mem]
  · exact instructionStep_read_outside_ram h hx

/-- Settles O22: the byte read region by region; supplied bytes stand behind the old ones, so the first is next after them. -/
theorem byteReadByAddress : Obligations.ByteReadByAddress := by
  refine ⟨fun a s => ?_, fun bytes s => ⟨_, rfl, rfl, fun k hk => List.getElem?_append_left hk, ?_⟩⟩
  · split_ifs with hstorage hctrl hstdin
    · exact readByte_of_storage (storage_iff.mpr hstorage)
    · exact readByte_of_ctrl (region_ctrl_iff.mpr hctrl)
    · rw [readByte_of_stdin (region_stdin_iff.mpr hstdin)]
      exact ⟨fun b hb => takeStdin_of_some hb,
        fun hnone => ⟨takeStdin_of_none hnone, fun b hb => by rw [State.stdinEof, hb, Option.getD_some]⟩⟩
    · refine readByte_of_refused (mt granted_read_byte_iff.mp ?_)
      rw [storage_iff, region_ctrl_iff, region_stdin_iff]
      exact not_or.mpr ⟨hstorage, not_or.mpr ⟨hctrl, hstdin⟩⟩
  · rintro b rest rfl hpos
    rw [readByte_of_stdin (by decide)]
    exact takeStdin_of_some (by simp [hpos])

/-- Settles O23. -/
theorem byteWriteByAddress : Obligations.ByteWriteByAddress := by
  intro a v s
  split_ifs with hram hout herr hstop
  · exact writeByte_of_ram (region_ram_iff.mpr hram)
  · exact writeByte_of_stdout (region_stdout_iff.mpr hout)
  · exact writeByte_of_stderr (region_stderr_iff.mpr herr)
  · exact writeByte_of_stop (region_stop_iff.mpr hstop)
  · refine writeByte_of_refused (mt granted_write_byte_iff.mp ?_)
    rw [region_ram_iff, region_stdout_iff, region_stderr_iff, region_stop_iff]
    exact not_or.mpr ⟨hram, not_or.mpr ⟨hout, not_or.mpr ⟨herr, hstop⟩⟩⟩

/-- Settles O24. -/
theorem wordReadByAddress : Obligations.WordReadByAddress := by
  intro a s
  split_ifs with h <;> rw [← storage_iff] at h
  · rw [readWord_of_storage h]
    exact ⟨rfl, toNat_append_bits _ _⟩
  · exact readWord_of_refused (mt granted_read_word_iff.mp h)

/-- Settles O25: in RAM the witness is the storage with the unit written; the unit ends below the RAM's end. -/
theorem wordWriteByAddress : Obligations.WordWriteByAddress := by
  intro a v s hwf
  split_ifs with h <;> rw [← region_ram_iff] at h
  · have hu : alignDown a 2 + 1 < memSize := (alignDown_two_ram h).trans (by decide)
    exact ⟨_, writeWord_eq_writeUnit h, Memory.wf_writeUnit hwf hu,
      (congrArg _ (Memory.read_writeUnit_high hwf)).trans (highByte_toNat v),
      (congrArg _ (Memory.read_writeUnit_low hwf hu)).trans (lowByte_toNat v),
      fun x => Memory.read_writeUnit_of_ne⟩
  · exact writeWord_of_refused (mt granted_write_word_iff.mp h)

/-- Settles O26. -/
theorem fetchByAddress : Obligations.FetchByAddress := by
  intro a s
  split_ifs with h <;> rw [← region_rom_iff] at h
  · rw [readInstruction_of_rom h]
    exact ⟨rfl, wordOfBytes_toNat _ _ _ _⟩
  · exact readInstruction_of_refused (mt granted_execute_iff.mp h)

/-- Settles O27: the addresses of a unit share their rounding and whether they are RAM or ROM. -/
theorem accessesRoundDownToTheUnit : Obligations.AccessesRoundDownToTheUnit :=
  fun _ _ => ⟨readByte_of_storage, fun h _ => writeByte_of_ram h, readWord_value_add_one,
    fun ha h => ⟨readWord_add_one_of_storage ha h, by rw [readWord_of_storage h]⟩,
    fun ha h _ => ⟨writeWord_add_one_of_ram ha h, writeWord_diaglog_of_ram h⟩,
    fun ha _ hk => readInstruction_word_add ha hk,
    fun ha h _ hk => ⟨readInstruction_add_of_rom ha hk h, by rw [readInstruction_of_rom h]⟩⟩

/-- Settles O28: a word write and two byte writes leave the same unit; the four bytes of a fetch are those of its two words. -/
theorem widthsShareTheirBytes : Obligations.WidthsShareTheirBytes := by
  refine ⟨fun u v s hwf hu hlt => ?_, fun u b1 b0 s hwf hu hlt => ?_,
    fun u s hu hlo hhi => readInstruction_eq_append_readWord hu (region_rom hlo hhi)⟩
  all_goals
    have hr : region u = .ram := region_ram hlt
    have hbound : u.toNat + 1 < memSize := by unfold memSize; omega
  · rw [writeWord_eq_writeUnit hr, alignDown_of_aligned hu, readByte_of_storage (.inl hr),
      readByte_of_storage (.inl ((region_ram_add_one hu).mpr hr)), toNat_add_of_aligned (.inl rfl) hu (by decide)]
    exact ⟨Memory.read_writeUnit_high hwf, Memory.read_writeUnit_low hwf hbound⟩
  · rw [writeByte_pair_eq_writeUnit hu hr, readWord_of_storage (.inl hr), alignDown_of_aligned hu,
      Memory.read_writeUnit_high hwf, Memory.read_writeUnit_low hwf hbound]

/-- Settles O29: per access, the degraded outcome where the check refuses and the silent ones where it grants. -/
theorem refusedAccessesDegrade : Obligations.RefusedAccessesDegrade :=
  fun _ _ _ _ =>
    ⟨fun h => readByte_of_refused (Bool.eq_false_iff.mp h), fun h => readWord_of_refused (Bool.eq_false_iff.mp h),
      fun h => readInstruction_of_refused (Bool.eq_false_iff.mp h), fun h => writeByte_of_refused (Bool.eq_false_iff.mp h),
      fun h => writeWord_of_refused (Bool.eq_false_iff.mp h), readByte_diaglog_of_granted, readWord_diaglog_of_granted,
      readInstruction_diaglog_of_granted, writeByte_diaglog_of_granted,
      fun h => writeWord_diaglog_of_ram (granted_write_word_iff.mp h)⟩

/-- Settles O30: 0x7000 is the controller port, which grants a byte read and refuses a byte write. -/
theorem controllerPortReadsTheDrivenValue : Obligations.ControllerPortReadsTheDrivenValue :=
  have hr : region 0x7000#32 = .ctrl := by decide
  fun _ _ _ => ⟨⟨_, rfl, rfl, readByte_of_ctrl hr⟩, readByte_of_ctrl hr, writeByte_of_refused (by decide)⟩

end Sys2Proof.Proofs
end

section
/-! PROOFS. The family 30_encoding.md: the selection as a search of the rows of OPMAP, and its one inversion (O1, O2, O4); a word as the
encoding of its fields (O3); the words written out (O5); a write to register 0 (O53). -/

namespace Sys2Proof

/-! ### A word and its fields (30_encoding.md R71 to R74) -/

namespace Fields

/-- The word of the fields: `enc_I` or `enc_R` of R74. -/
def word : Fields → IWord
  | iType op a b imm => encI op a b imm
  | rType a b c sh fn => encR a b c sh fn

/-- The number that OPMAP is searched for: the opcode or the function. -/
def number : Fields → Code
  | iType op .. => op
  | rType _ _ _ _ fn => fn

/-- What the fields stand for where no row of OPMAP has their number (R80). -/
def unknown : Fields → Decoded
  | iType op .. => .unknownOpcode op
  | rType _ _ _ _ fn => .unknownFunction fn

/-- The rows of OPMAP for one format, each number with its instruction on these fields, in the order of R91. -/
def rows (m : Opmap) : Fields → List (Code × Instr)
  | iType _ a b imm =>
    [(m.opOri, .ori a b imm), (m.opAddi, .addi a b imm), (m.opSb, .sb a b imm), (m.opLbu, .lbu a b imm), (m.opLw, .lw a b imm),
      (m.opSw, .sw a b imm), (m.opBeq, .beq a b imm), (m.opBne, .bne a b imm), (m.opJ, .j a b imm), (m.opJal, .jal a b imm)]
  | rType a b c sh _ =>
    [(m.fnNor, .nor a b c sh), (m.fnOr, .or a b c sh), (m.fnSub, .sub a b c sh), (m.fnAdd, .add a b c sh), (m.fnAnd, .and a b c sh),
      (m.fnSlt, .slt a b c sh), (m.fnSll, .sll a b c sh), (m.fnSrl, .srl a b c sh), (m.fnSra, .sra a b c sh), (m.fnJr, .jr a b c sh)]

end Fields

theorem fieldsOf_of_ne_sentinel {w : IWord} (h : opcodeField w ≠ rSentinel) :
    fieldsOf w = .iType (opcodeField w) (regAField w) (regBField w) (immField w) := by
  rw [fieldsOf, classify, if_neg h]

theorem fieldsOf_of_sentinel {w : IWord} (h : opcodeField w = rSentinel) :
    fieldsOf w = .rType (regAField w) (regBField w) (regCField w) (shiftField w) (functionField w) := by
  rw [fieldsOf, classify, if_pos h]

/-- No bit of a word is outside its fields. -/
theorem word_fieldsOf (w : IWord) : (fieldsOf w).word = w := by
  by_cases h : opcodeField w = rSentinel
  · rw [fieldsOf_of_sentinel h]; exact encR_fields w h
  · rw [fieldsOf_of_ne_sentinel h]; exact encI_fields w

theorem encI_toNat (op : Code) (a b : RegIdx) (imm : Imm) :
    (encI op a b imm).toNat = op.toNat * 2 ^ 26 + a.toNat * 2 ^ 21 + b.toNat * 2 ^ 16 + imm.toNat := by
  simp only [encI, Machine.toNat_append_bits]
  omega

theorem encR_toNat (a b c : RegIdx) (sh : Shamt) (fn : Code) :
    (encR a b c sh fn).toNat =
      28 * 2 ^ 26 + a.toNat * 2 ^ 21 + b.toNat * 2 ^ 16 + c.toNat * 2 ^ 11 + sh.toNat * 2 ^ 6 + fn.toNat := by
  have hs : rSentinel.toNat = 28 := rfl
  simp only [encR, Machine.toNat_append_bits, hs]
  omega

/-! ### The selection (R80, R91) -/

variable {m : Opmap} {i : Instr}

/-- The instruction of the first row with the number, or else the unknown encoding. -/
def firstRow (unknown : Decoded) (n : Code) (rows : List (Code × Instr)) : Decoded :=
  rows.foldr (fun row rest => if n = row.1 then .instr row.2 else rest) unknown

theorem firstRow_cases (unknown : Decoded) (n : Code) (rows : List (Code × Instr)) :
    (∃ i, (n, i) ∈ rows ∧ firstRow unknown n rows = .instr i) ∨
      (n ∉ rows.map Prod.fst ∧ firstRow unknown n rows = unknown) := by
  induction rows with
  | nil => exact .inr ⟨List.not_mem_nil, rfl⟩
  | cons row rest ih =>
    by_cases h : n = row.1
    · exact .inl ⟨row.2, h ▸ List.mem_cons_self, if_pos h⟩
    · have hrest : firstRow unknown n (row :: rest) = firstRow unknown n rest := if_neg h
      rw [hrest, List.map_cons, List.mem_cons, not_or]
      exact ih.imp (fun ⟨i, hi, hs⟩ => ⟨i, List.mem_cons_of_mem _ hi, hs⟩) fun ⟨hn, hs⟩ => ⟨⟨h, hn⟩, hs⟩

/-- The two dispatch chains search the rows of their format. -/
theorem select_eq_firstRow (m : Opmap) (f : Fields) : select m f = firstRow f.unknown f.number (f.rows m) := by
  cases f <;> rfl

/-- The two things a selection can be: the instruction of a row with the number, or, where no row has it, the unknown encoding. -/
theorem select_cases (m : Opmap) (f : Fields) :
    (∃ i, (f.number, i) ∈ f.rows m ∧ select m f = .instr i) ∨
      (f.number ∉ (f.rows m).map Prod.fst ∧ select m f = f.unknown) := by
  rw [select_eq_firstRow]
  exact firstRow_cases ..

/-- The encoder puts a row's number where the decoder takes it from. -/
theorem encodeWith_of_mem_rows {f : Fields} (h : (f.number, i) ∈ f.rows m) : encodeWith m i = f.word := by
  cases f with
  | iType op a b imm =>
    have hrows : ∀ row ∈ Fields.rows m (.iType op a b imm), encodeWith m row.2 = encI row.1 a b imm := by
      simp [Fields.rows, encodeWith]
    exact hrows _ h
  | rType a b c sh fn =>
    have hrows : ∀ row ∈ Fields.rows m (.rType a b c sh fn), encodeWith m row.2 = encR a b c sh row.1 := by
      simp [Fields.rows, encodeWith]
    exact hrows _ h

/-- R79 in three parts. -/
theorem Opmap.wf_iff : m.wf = true ↔ rSentinel ∉ m.opcodes ∧ m.opcodes.Nodup ∧ m.functions.Nodup := by
  simp [Opmap.wf, rSentinel, and_assoc]

theorem nodup_rows (h : m.wf = true) (f : Fields) : ((f.rows m).map Prod.fst).Nodup := by
  obtain ⟨-, hop, hfn⟩ := Opmap.wf_iff.mp h
  cases f
  · exact hop
  · exact hfn

/-- Every instruction is the row of its own word: an I-type number is not the sentinel, so the word is read in the format it was written. -/
theorem mem_rows_encodeWith (h : m.wf = true) (i : Instr) :
    ((fieldsOf (encodeWith m i)).number, i) ∈ (fieldsOf (encodeWith m i)).rows m := by
  have hs := (Opmap.wf_iff.mp h).1
  cases i with
  | j a b imm | jal a b imm | beq a b imm | bne a b imm | addi a b imm | ori a b imm | lw a b imm | lbu a b imm | sb a b imm
  | sw a b imm =>
    rw [encodeWith, fieldsOf_encI (ne_of_mem_of_not_mem (by simp [Opmap.opcodes]) hs)]
    simp [Fields.rows, Fields.number]
  | sll a b c sh | srl a b c sh | sra a b c sh | jr a b c sh | add a b c sh | sub a b c sh | and a b c sh | or a b c sh
  | nor a b c sh | slt a b c sh =>
    rw [encodeWith, fieldsOf_encR]
    simp [Fields.rows, Fields.number]

/-- A well-formed OPMAP has one row per number, so the search ends at any row with it. -/
theorem select_of_mem_rows (h : m.wf = true) {f : Fields} (hi : (f.number, i) ∈ f.rows m) : select m f = .instr i := by
  rcases select_cases m f with ⟨i', hi', hs⟩ | ⟨hno, -⟩
  · cases List.inj_on_of_nodup_map (nodup_rows h f) hi hi' rfl
    exact hs
  · exact absurd (List.mem_map_of_mem hi) hno

theorem Fields.unknown_ne_instr (f : Fields) : f.unknown ≠ .instr i := by
  cases f <;> exact Decoded.noConfusion

theorem mem_rows_of_select {f : Fields} (h : select m f = .instr i) : (f.number, i) ∈ f.rows m := by
  rcases select_cases m f with ⟨i', hi', hs⟩ | ⟨-, hs⟩
  · cases hs.symm.trans h
    exact hi'
  · exact absurd (hs.symm.trans h) f.unknown_ne_instr

/-- A selection that is no instruction is the unknown encoding, exactly where no row has the number. -/
theorem select_eq_iff_of_ne_instr {f : Fields} {d : Decoded} (hd : ∀ i, .instr i ≠ d) :
    select m f = d ↔ f.unknown = d ∧ f.number ∉ (f.rows m).map Prod.fst := by
  rcases select_cases m f with ⟨i, hi, hs⟩ | ⟨hno, hs⟩ <;> rw [hs]
  · exact iff_of_false (hd i) fun ⟨_, hno⟩ => hno (List.mem_map_of_mem hi)
  · exact (and_iff_left hno).symm

end Sys2Proof

namespace Sys2Proof.Machine

/-- A write to register 0 is discarded, so only the default PC rule is left of the instruction's end (10_state.md R12). -/
theorem State.writeBack_zero (s : State) (v : Word) :
    s.writeBack 0#5 v = { s with pc := narrow s.config.addrWidth (s.pc + 4#32) } := by
  rw [writeBack, setReg_zero]
  rfl

end Sys2Proof.Machine

/-! ### The obligations -/

namespace Sys2Proof.Proofs

open Sys2Proof.Machine

/-- Settles O1: the word's fields have the instruction's row, and under R79 no other row has its number. -/
theorem decodeInvertsEncode : Obligations.DecodeInvertsEncode :=
  fun _ hm i => select_of_mem_rows hm (mem_rows_encodeWith hm i)

/-- Settles O2: what is selected is a row with the word's number, and such a row encodes to the word of the fields. -/
theorem encodeInvertsDecode : Obligations.EncodeInvertsDecode := by
  intro m w i h
  exact (encodeWith_of_mem_rows (mem_rows_of_select h)).trans (word_fieldsOf w)

/-- Settles O3: the word is the encoding of its fields, whose digits are known. -/
theorem fieldsAreTheDigitsOfTheWord : Obligations.FieldsAreTheDigitsOfTheWord := by
  intro w
  by_cases h : opcodeField w = rSentinel
  · rw [fieldsOf_of_sentinel h]
    exact (congrArg _ (encR_fields w h)).symm.trans (encR_toNat ..)
  · rw [fieldsOf_of_ne_sentinel h]
    exact ⟨h, (congrArg _ (encI_fields w)).symm.trans (encI_toNat ..)⟩

/-- Settles O4: per format, the search of the ten rows fails exactly where none has the number. -/
theorem unknownEncodingsAreTheRest : Obligations.UnknownEncodingsAreTheRest := by
  intro m w
  by_cases h : opcodeField w = rSentinel <;> refine ⟨fun op => ?_, fun fn => ?_⟩ <;>
    rw [decodeWith, select_eq_iff_of_ne_instr fun _ => Decoded.noConfusion]
  · rw [fieldsOf_of_sentinel h]
    exact iff_of_false (fun hu => nomatch hu.1) fun hne => hne.1 h
  · rw [fieldsOf_of_sentinel h]
    exact ⟨fun ⟨hu, hno⟩ => by cases hu; exact ⟨h, rfl, hno⟩, fun ⟨_, hfn, hno⟩ => by cases hfn; exact ⟨rfl, hno⟩⟩
  · rw [fieldsOf_of_ne_sentinel h]
    exact ⟨fun ⟨hu, hno⟩ => by cases hu; exact ⟨h, rfl, hno⟩, fun ⟨_, hop, hno⟩ => by cases hop; exact ⟨rfl, hno⟩⟩
  · rw [fieldsOf_of_ne_sentinel h]
    exact iff_of_false (fun hu => nomatch hu.1) fun heq => h heq.1

/-- Settles O5, by running the decoder on the eight words. -/
theorem writtenOutWordsDecode : Obligations.WrittenOutWordsDecode := by
  unfold Obligations.WrittenOutWordsDecode
  decide

/-- Settles O53: each of the eleven ends in a write to register 0. -/
theorem destinationZeroChangesOnlyPc : Obligations.DestinationZeroChangesOnlyPc := by
  intro a b imm sh s
  have hend (v : Word) : (.next (s.writeBack 0#5 v) : Result) = .next { s with pc := narrow s.config.addrWidth (s.pc + 4#32) } :=
    congrArg _ (s.writeBack_zero v)
  simp only [List.forall_mem_cons]
  exact ⟨⟨hend _, hend _, nofun⟩, hend _, hend _, hend _, hend _, hend _, hend _, hend _, hend _, hend _, nofun⟩

end Sys2Proof.Proofs
end

section
/-! PROOFS. The family 40_engine_step.md: what the fetch leaves, one law for what an instruction does, by its access, destination, target
and halt request, hence what a step runs, changes and reports (O6 to O10, O12, O13); the end of a phase (O15). -/

namespace Sys2Proof.Machine

open Sys2Proof.Safety

variable {s t : State} {i : Instr}

/-! ### The default PC rule as a number (40_engine_step.md R95) -/

theorem narrow_add_four_toNat (w : AddrWidth) (p : Addr) : (narrow w (p + 4#32)).toNat = (p.toNat + 4) % 2 ^ w.bits := by
  rw [narrow_toNat, BitVec.toNat_add]
  exact Nat.mod_mod_of_dvd _ (Nat.pow_dvd_pow 2 (addrWidth_bits_le w))

theorem advanced_of_pc (h : t.pc = narrow s.config.addrWidth (s.pc + 4#32)) : Advanced s t := by
  rw [Advanced, h, narrow_add_four_toNat]

/-! ### What each instruction does (R90, R97) -/

/-- The state after the one data access of an instruction; the state itself where it makes none. -/
def accessed (i : Instr) (s : State) : State :=
  match i with
  | .lw a _ imm => (readWord (effectiveAddress s a imm) s).2
  | .lbu a _ imm => (readByte (effectiveAddress s a imm) s).2
  | .sb a b imm => (writeByte (effectiveAddress s a imm) ((s.reg b).extractLsb' 0 8) s).1
  | .sw a b imm => writeWord (effectiveAddress s a imm) (s.reg b) s
  | _ => s

/-- The value of the one PC update of an instruction, before its reduction to the address width. -/
def targetPc (i : Instr) (s : State) : Addr :=
  match i with
  | .j _ _ imm | .jal _ _ imm => jumpTarget imm
  | .beq a b imm => if s.reg a = s.reg b then branchTarget s imm else s.pc + 4#32
  | .bne a b imm => if s.reg a = s.reg b then s.pc + 4#32 else branchTarget s imm
  | .jr a _ _ _ => registerTarget s a
  | _ => s.pc + 4#32

/-- `halt_req` of an instruction (20_memory.md R45). -/
def haltRequest (i : Instr) (s : State) : Bool :=
  match i with
  | .sb a b imm => (writeByte (effectiveAddress s a imm) ((s.reg b).extractLsb' 0 8) s).2
  | _ => false

theorem accessed_access (i : Instr) (s : State) : Access s (accessed i s) := by
  cases i with
  | lw a b imm => exact readWord_access _ s
  | lbu a b imm => exact readByte_access _ s
  | sb a b imm => exact writeByte_access _ _ s
  | sw a b imm => exact writeWord_access _ _ s
  | _ => exact .nothing

theorem Access.pc (h : Access s t) : t.pc = s.pc := by cases h <;> rfl

theorem Access.reg (h : Access s t) (r : RegIdx) : t.reg r = s.reg r := by cases h <;> rfl

theorem Access.halted (h : Access s t) : t.halted = s.halted := by cases h <;> rfl

theorem Access.config (h : Access s t) : t.config = s.config := by
  obtain ⟨-, -, -, -, hc⟩ := h.sameEngine
  exact hc

theorem ended_pc (s : State) (r : RegIdx) (v : Word) (p : Addr) (h : Bool) :
    (ended s r v p h).pc = narrow s.config.addrWidth p := by
  cases h <;> rfl

theorem ended_halted (s : State) (r : RegIdx) (v : Word) (p : Addr) (h : Bool) : (ended s r v p h).halted = (s.halted || h) := by
  cases h
  · exact (Bool.or_false _).symm
  · exact (Bool.or_true _).symm

theorem ended_reg (s : State) (r x : RegIdx) (v : Word) (p : Addr) (h : Bool) :
    (ended s r v p h).reg x = (s.setReg r v).reg x := by
  cases h <;> rfl

/-- Without a destination an instruction ends in its PC update and the halt alone (10_state.md R12). -/
theorem ended_zero (s : State) (v : Word) (p : Addr) (h : Bool) :
    ended s 0#5 v p h = if h then (s.setPc p).halt else s.setPc p := by
  rw [ended, State.setReg_zero]

/-- No access changes the target: an instruction with an access goes on at pc + 4. -/
theorem targetPc_accessed (i : Instr) (s : State) : targetPc i (accessed i s) = targetPc i s := by
  cases i with
  | lw | lbu | sb | sw => exact congrArg (· + 4#32) (accessed_access _ s).pc
  | _ => rfl

/-- The law of an instruction: its access, then its end, which writes the destination (register 0 where there is none). -/
theorem exec_eq_ended (i : Instr) (s : State) :
    ∃ v, exec i s = .next (ended (accessed i s) ((destination i).getD 0#5) v (targetPc i s) (haltRequest i s)) := by
  rw [← targetPc_accessed]
  cases i with
  | jal | addi | ori | lw | lbu | sll | srl | sra | add | sub | and | or | nor | slt => exact ⟨_, rfl⟩
  | j | jr | sb | sw => exact ⟨0#16, by rw [destination, Option.getD_none, ended_zero]; rfl⟩
  | beq a b imm | bne a b imm =>
    refine ⟨0#16, ?_⟩
    rw [destination, Option.getD_none, ended_zero]
    by_cases h : s.reg a = s.reg b <;>
      simp [exec, execBeq, execBne, branchIf, equalCond, accessed, targetPc, haltRequest, State.advancePc, h]

/-- The one PC update of an instruction (R95). -/
theorem exec_pc (i : Instr) (s : State) :
    ∃ t, exec i s = .next t ∧ t.pc = narrow s.config.addrWidth (targetPc i s) := by
  obtain ⟨v, h⟩ := exec_eq_ended i s
  exact ⟨_, h, by rw [ended_pc, (accessed_access i s).config]⟩

theorem exec_advanced (h : targetPc i s = s.pc + 4#32) : ∃ t, exec i s = .next t ∧ Advanced s t := by
  obtain ⟨t, ht, hpc⟩ := exec_pc i s
  exact ⟨t, ht, advanced_of_pc (h ▸ hpc)⟩

/-- An instruction writes no register but its destination (R97). -/
theorem ended_sameRegsExcept (i : Instr) (s : State) (v : Word) (p : Addr) (h : Bool) :
    SameRegsExcept (destination i).toList s (ended s ((destination i).getD 0#5) v p h) := by
  intro r hr
  rw [ended_reg]
  cases hd : destination i with
  | none => rw [Option.getD_none, State.setReg_zero]
  | some d => exact State.reg_setReg_of_ne s d r v (by simpa [hd] using hr)

/-! ### The storage an instruction changes, by its effective address (20_memory.md R45, R47) -/

theorem takeStdin_mem (s : State) : s.takeStdin.2.mem = s.mem := by
  unfold State.takeStdin; split <;> rfl

theorem readByte_mem (a : Addr) (s : State) : (readByte a s).2.mem = s.mem := by
  unfold readByte
  cases region a
  case stdin => exact takeStdin_mem s
  all_goals rfl

theorem readWord_mem (a : Addr) (s : State) : (readWord a s).2.mem = s.mem := by
  unfold readWord; cases region a <;> rfl

theorem writeByte_mem_of_not_ram {a : Addr} {v : Byte} (h : region a ≠ .ram) : (writeByte a v s).1.mem = s.mem := by
  unfold writeByte
  cases hr : region a
  case ram => exact absurd hr h
  all_goals rfl

theorem writeByte_storage (a : Addr) (v : Byte) (s : State) :
    if a.toNat < 0x7000 then SameStorageExcept [a.toNat] s (writeByte a v s).1 else SameStorage s (writeByte a v s).1 := by
  split_ifs with h <;> rw [← region_ram_iff] at h <;> intro x
  · intro hx
    rw [writeByte_of_ram h]
    exact Memory.read_write_of_ne (List.ne_of_not_mem_cons hx)
  · rw [writeByte_mem_of_not_ram h]

theorem writeWord_storage (a : Addr) (v : Word) (s : State) :
    if a.toNat < 0x7000 then SameStorageExcept [alignDown a 2, alignDown a 2 + 1] s (writeWord a v s)
    else SameStorage s (writeWord a v s) := by
  split_ifs with h <;> rw [← region_ram_iff] at h <;> intro x
  · intro hx
    rw [writeWord_eq_writeUnit h]
    exact Memory.read_writeUnit_of_ne (List.ne_of_not_mem_cons hx)
      (List.ne_of_not_mem_cons (List.not_mem_of_not_mem_cons hx))
  · rw [writeWord_of_refused (mt granted_write_word_iff.mp h), State.violation_mem]

/-- Only SB and SW store. -/
theorem accessed_mem (hsb : ∀ a b imm, i ≠ .sb a b imm) (hsw : ∀ a b imm, i ≠ .sw a b imm) (s : State) :
    (accessed i s).mem = s.mem := by
  cases i with
  | sb a b imm => exact absurd rfl (hsb a b imm)
  | sw a b imm => exact absurd rfl (hsw a b imm)
  | lw => exact readWord_mem _ s
  | lbu => exact readByte_mem _ s
  | _ => rfl

/-! ### The halt request (R96) -/

theorem writeByte_halt_iff {a : Addr} {v : Byte} : (writeByte a v s).2 = true ↔ a.toNat = 0x7200 := by
  rw [← region_stop_iff]
  unfold writeByte
  cases region a <;> simp

theorem haltRequest_iff : haltRequest i s = true ↔ ∃ a b imm, i = .sb a b imm ∧ (effectiveAddress s a imm).toNat = 0x7200 := by
  cases i with
  | sb a b imm => exact writeByte_halt_iff.trans ⟨fun h => ⟨a, b, imm, rfl, h⟩, by rintro ⟨_, _, _, ⟨⟩, h⟩; exact h⟩
  | _ => exact iff_of_false Bool.false_ne_true (by rintro ⟨_, _, _, ⟨⟩, -⟩)

theorem stepResult_halts_iff : stepResult s = .halts ↔ s.halted = true := by
  unfold stepResult; split <;> simp [*]

/-! ### What a step leaves of the ports, the diagnostics and the frames (R97) -/

/-- The bounds of R97: at most one input byte read, one output byte emitted and `n` events appended; the rest as before. -/
structure PortBounds (n : Nat) (s t : State) : Prop where
  stdinPos : t.stdinPos = s.stdinPos ∨ t.stdinPos = s.stdinPos + 1
  outputs  : SameOutputs s t ∨ (∃ b, t.stdout = s.stdout ++ [b] ∧ t.stderr = s.stderr) ∨
    (∃ b, t.stdout = s.stdout ∧ t.stderr = s.stderr ++ [b])
  diaglog  : ∃ ds : List Diag, ds.length ≤ n ∧ t.diaglog = s.diaglog ++ ds
  ctrl     : t.ctrl = s.ctrl
  stdin    : t.stdin = s.stdin
  frames   : t.frames = s.frames

theorem Access.portBounds (h : Access s t) : PortBounds 1 s t := by
  have none_appended : ∃ ds : List Diag, ds.length ≤ 1 ∧ s.diaglog = s.diaglog ++ ds := ⟨[], by simp⟩
  cases h with
  | nothing | byte | word => exact ⟨.inl rfl, .inl ⟨rfl, rfl⟩, none_appended, rfl, rfl, rfl⟩
  | consume => exact ⟨.inr rfl, .inl ⟨rfl, rfl⟩, none_appended, rfl, rfl, rfl⟩
  | violation a k w => exact ⟨.inl rfl, .inl ⟨rfl, rfl⟩, ⟨[_], le_rfl, rfl⟩, rfl, rfl, rfl⟩
  | stdout b => exact ⟨.inl rfl, .inr (.inl ⟨b, rfl, rfl⟩), none_appended, rfl, rfl, rfl⟩
  | stderr b => exact ⟨.inl rfl, .inr (.inr ⟨b, rfl, rfl⟩), none_appended, rfl, rfl, rfl⟩

theorem report_advancePc_portBounds (s : State) (d : Diag) : PortBounds 1 s (s.report d).advancePc :=
  ⟨.inl rfl, .inl ⟨rfl, rfl⟩, ⟨[d], le_rfl, rfl⟩, rfl, rfl, rfl⟩

/-- The end of an instruction leaves all of it. -/
theorem PortBounds.ended {n : Nat} (h : PortBounds n s t) (r : RegIdx) (v : Word) (p : Addr) (b : Bool) :
    PortBounds n s (ended t r v p b) := by
  cases b <;> exact ⟨h.stdinPos, h.outputs, h.diaglog, h.ctrl, h.stdin, h.frames⟩

/-! ### The fetch (R91, R93) -/

/-- The state a fetch leaves; its word is `fetchedWord`. -/
def afterFetch (s : State) : State := (readInstruction s.pc s).2

/-- A fetch appends at most one event and changes nothing else. -/
theorem afterFetch_eq (s : State) : ∃ ds : List Diag, ds.length ≤ 1 ∧ afterFetch s = { s with diaglog := s.diaglog ++ ds } := by
  unfold afterFetch
  rcases readInstruction_cases s.pc s with ⟨-, h⟩ | ⟨-, h⟩ <;> rw [h]
  · exact ⟨[], Nat.zero_le 1, by rw [List.append_nil]⟩
  · exact ⟨[_], le_rfl, rfl⟩

theorem afterFetch_pc (s : State) : (afterFetch s).pc = s.pc := (readInstruction_access s.pc s).pc

theorem afterFetch_halted (s : State) : (afterFetch s).halted = s.halted := (readInstruction_access s.pc s).halted

theorem afterFetch_reg (s : State) (r : RegIdx) : (afterFetch s).reg r = s.reg r := (readInstruction_access s.pc s).reg r

theorem afterFetch_mem (s : State) : (afterFetch s).mem = s.mem := by
  obtain ⟨ds, -, h⟩ := afterFetch_eq s
  rw [h]

theorem effectiveAddress_afterFetch (s : State) (a : RegIdx) (imm : Imm) :
    effectiveAddress (afterFetch s) a imm = effectiveAddress s a imm := by
  obtain ⟨ds, -, h⟩ := afterFetch_eq s
  rw [h]
  rfl

/-- The event of the fetch counts with those of what runs after it. -/
theorem PortBounds.of_afterFetch (h : PortBounds 1 (afterFetch s) t) : PortBounds 2 s t := by
  obtain ⟨ds, hds, hs⟩ := afterFetch_eq s
  rw [hs] at h
  obtain ⟨es, hes, he⟩ := h.diaglog
  exact ⟨h.stdinPos, h.outputs, ⟨ds ++ es, by rw [List.length_append]; omega, by rw [he, List.append_assoc]⟩,
    h.ctrl, h.stdin, h.frames⟩

/-! ### What a step runs -/

theorem step_of_atInstruction (h : AtInstruction s) : step s = instructionStep s := by
  obtain ⟨hh, hs, hp⟩ := h
  simp [step, engineStep, hh, hs, hp]

/-- R91: fetch, decode, dispatch. -/
theorem step_eq_runDecoded (h : AtInstruction s) :
    step s = runDecoded (decodeWith s.config.opmap (fetchedWord s)) (fetchedWord s) (afterFetch s) :=
  step_of_atInstruction h

/-- A step runs the instruction about to execute, or reports an unknown encoding and advances. -/
theorem step_nextInstr_cases (h : AtInstruction s) :
    (∃ i, nextInstr s = some i ∧ step s = exec i (afterFetch s)) ∨
      (nextInstr s = none ∧ ∃ d, step s = .next ((afterFetch s).report d).advancePc) := by
  rw [step_eq_runDecoded h]
  unfold nextInstr
  rcases runDecoded_inversion (decodeWith s.config.opmap (fetchedWord s)) (fetchedWord s) (afterFetch s) with
    ⟨i, hd, hr⟩ | ⟨op, hd, hr⟩ | ⟨fn, hd, hr⟩ <;> rw [hr, hd]
  · exact .inl ⟨i, rfl, rfl⟩
  · exact .inr ⟨rfl, _, rfl⟩
  · exact .inr ⟨rfl, _, rfl⟩

/-- The report of an unknown encoding appends its event to what the fetch reported, advances pc and leaves the rest (R94). -/
theorem report_advancePc_frame (s : State) (d : Diag) :
    let t := ((afterFetch s).report d).advancePc
    Advanced s t ∧ SameRegs s t ∧ SameStorage s t ∧ SameEngine s t ∧ t.halted = s.halted ∧ SameInputs s t ∧ SameOutputs s t ∧
      t.frames = s.frames ∧ t.diaglog = (afterFetch s).diaglog ++ [d] := by
  obtain ⟨ds, -, hs⟩ := afterFetch_eq s
  rw [hs]
  exact ⟨advanced_of_pc rfl, fun _ => rfl, fun _ => rfl, ⟨rfl, rfl, rfl, rfl, rfl⟩, rfl, ⟨rfl, rfl, rfl⟩, ⟨rfl, rfl⟩, rfl, rfl⟩

/-! ### The moves of the sequencer (R100 to R102) -/

theorem step_between_iterations (hh : s.halted = false) (hs : s.stage = .betweenIterations) : step s = .next (beginIteration s) := by
  simp [step, engineStep, hh, hs]

theorem Memory.window_getElem? (m : Memory) (base : Nat) {size k : Nat} (hk : k < size) :
    (m.window base size)[k]? = some (m.read (base + k)) := by
  rw [window, List.getElem?_map, List.getElem?_range hk, Option.map_some]

theorem vramSize_eq : vramSize = 15360 := rfl

theorem renderEvent_getElem? (s : State) {k : Nat} (hk : k < vramSize) :
    (renderEvent s).pixels[k]? = some (s.mem.read (s.vramBase + k)) := by
  rw [renderEvent, Memory.window_getElem? _ _ hk]

/-- The video window ends inside the RAM, wherever the parameters place it (20_memory.md R57). -/
theorem vramBase_add_size_le (s : State) : s.vramBase + 15360 ≤ 0x7000 := by
  have := (s.config.vramBase.getD openVramBase).isLt
  unfold State.vramBase
  omega

end Sys2Proof.Machine

/-! ### The obligations -/

namespace Sys2Proof.Proofs

open Sys2Proof.Machine Sys2Proof.Safety

/-- Settles O6: a fetch from the ROM gives the four bytes and leaves the state. -/
theorem stepRunsTheFetchedInstruction : Obligations.StepRunsTheFetchedInstruction := by
  intro s i h hlo hhi hd
  rw [step_of_atInstruction h, instructionStep, readInstruction_of_rom (region_rom hlo hhi), hd, runDecoded]

/-- Settles O7: off the ROM the fetch is refused; where no opcode is 0, the word 0 is an unknown encoding. -/
theorem degradedFetchRunsTheZeroWord : Obligations.DegradedFetchRunsTheZeroWord := by
  intro s h hpc
  have hrefused : ¬granted s.pc .execute .instruction = true := by
    rw [granted_execute_iff, region_rom_iff]
    omega
  have hrun : step s = runDecoded (decodeWith s.config.opmap 0#32) 0#32 (s.violation s.pc .execute .instruction) := by
    rw [step_of_atInstruction h, instructionStep, readInstruction_of_refused hrefused]
  refine ⟨hrun, fun hno => ?_⟩
  have hd : decodeWith s.config.opmap 0#32 = .unknownOpcode 0#6 :=
    ((unknownEncodingsAreTheRest s.config.opmap 0#32).1 0#6).mpr ⟨by decide, by decide, hno⟩
  rw [hrun, hd]
  exact congrArg (fun ds => Host.Outcome.next { s with pc := narrow s.config.addrWidth (s.pc + 4#32), diaglog := ds })
    (List.append_assoc ..)

/-- Settles O8: both kinds of unknown encoding end in the same report. -/
theorem unknownEncodingIsANoOp : Obligations.UnknownEncodingIsANoOp := by
  intro s h
  refine ⟨fun op hd => ⟨_, ?_, report_advancePc_frame s _⟩, fun fn hd => ⟨_, ?_, report_advancePc_frame s _⟩⟩ <;>
    rw [step_eq_runDecoded h, hd, runDecoded, afterFetch_pc]

/-- Settles O9: every part of a step, and every instruction, is a next state by its inversion. -/
theorem engineNeverAborts : Obligations.EngineNeverAborts := by
  have hexec (i : Instr) (s : State) : ∃ t, exec i s = .next t := (exec_pc i s).imp fun _ h => h.1
  refine ⟨fun s => ?_, hexec⟩
  rcases step_cases s with ⟨-, hs⟩ | ⟨-, -, hs⟩ | ⟨-, -, hs⟩ | ⟨-, -, -, hs⟩ | ⟨hh, hst, hp, -⟩
  · exact ⟨_, hs⟩
  · exact ⟨_, hs⟩
  · exact ⟨_, hs⟩
  · exact ⟨_, hs⟩
  · rcases step_nextInstr_cases ⟨hh, hst, hp⟩ with ⟨i, -, hs⟩ | ⟨-, d, hs⟩
    · rw [hs]; exact hexec i _
    · exact ⟨_, hs⟩

/-- Settles O10: the fetch may report, the access stores by the effective address, the end writes the destination. -/
theorem stepChangesAtMost : Obligations.StepChangesAtMost := by
  intro s t h ht
  have hengine : SameEngine s t := instructionStep_sameEngine ((step_of_atInstruction h).symm.trans ht)
  rcases step_nextInstr_cases h with ⟨i, hi, hs⟩ | ⟨hi, d, hs⟩
  · obtain ⟨v, he⟩ := exec_eq_ended i (afterFetch s)
    cases (hs.trans he).symm.trans ht
    have hacc := accessed_access i (afterFetch s)
    have hb := (hacc.portBounds.ended ((destination i).getD 0#5) v (targetPc i (afterFetch s))
      (haltRequest i (afterFetch s))).of_afterFetch
    refine ⟨fun r hr => ?_, ?_, ?_, ?_, hb.stdinPos, hb.outputs, hb.diaglog, hengine, hb.ctrl, hb.stdin, hb.frames⟩
    · rw [writtenRegs, hi] at hr
      rw [ended_sameRegsExcept i _ _ _ _ r hr, hacc.reg, afterFetch_reg]
    · intro a b imm hsb
      cases hi.symm.trans hsb
      simpa only [SameStorageExcept, SameStorage, ended_mem, accessed, afterFetch_mem, effectiveAddress_afterFetch] using
        writeByte_storage (effectiveAddress s a imm) (((afterFetch s).reg b).extractLsb' 0 8) (afterFetch s)
    · intro a b imm hsw
      cases hi.symm.trans hsw
      simpa only [SameStorageExcept, SameStorage, ended_mem, accessed, afterFetch_mem, effectiveAddress_afterFetch] using
        writeWord_storage (effectiveAddress s a imm) ((afterFetch s).reg b) (afterFetch s)
    · intro hsb hsw x
      simp only [hi, ne_eq, Option.some.injEq] at hsb hsw
      rw [ended_mem, accessed_mem hsb hsw, afterFetch_mem]
  · cases hs.symm.trans ht
    obtain ⟨-, hregs, hmem, -⟩ := report_advancePc_frame s d
    have hb := (report_advancePc_portBounds (afterFetch s) d).of_afterFetch
    exact ⟨fun r _ => hregs r, fun _ _ _ hsb => (nomatch hi.symm.trans hsb), fun _ _ _ hsw => (nomatch hi.symm.trans hsw),
      fun _ _ => hmem, hb.stdinPos, hb.outputs, hb.diaglog, hengine, hb.ctrl, hb.stdin, hb.frames⟩

/-- Settles O12: the halt wire is the store's alone; neither the fetch nor an unknown encoding halts. -/
theorem onlyTheStopPortHalts : Obligations.OnlyTheStopPortHalts := by
  intro s t h ht
  have hf : (afterFetch s).halted = false := (afterFetch_halted s).trans h.1
  rw [stepResult_halts_iff]
  rcases step_nextInstr_cases h with ⟨i, hi, hs⟩ | ⟨hi, d, hs⟩
  · obtain ⟨v, he⟩ := exec_eq_ended i (afterFetch s)
    cases (hs.trans he).symm.trans ht
    rw [ended_halted, (accessed_access i _).halted, hf, Bool.false_or, haltRequest_iff]
    simp only [hi, Option.some.injEq, effectiveAddress_afterFetch]
  · cases hs.symm.trans ht
    refine iff_of_false (by simp [hf]) ?_
    simp [hi]

/-- Settles O13, by the target of each form. -/
theorem defaultPcRule : Obligations.DefaultPcRule := by
  refine ⟨fun a b imm s i hi => exec_advanced ?_, fun a b c sh s i hi => exec_advanced ?_, fun w s hno => ?_,
    fun a b imm s => ⟨fun h => exec_advanced (if_neg h), fun h => exec_advanced (if_pos h)⟩,
    fun a b imm s => ⟨?_, fun h => ?_, fun h => ?_⟩, fun a b c sh s => exec_pc _ s⟩
  · revert i
    simp [targetPc]
  · revert i
    simp [targetPc]
  · rcases runDecoded_inversion (decodeWith s.config.opmap w) w s with ⟨i, hd, -⟩ | ⟨op, -, hr⟩ | ⟨fn, -, hr⟩
    · exact absurd hd (hno i)
    · exact ⟨_, hr, advanced_of_pc rfl⟩
    · exact ⟨_, hr, advanced_of_pc rfl⟩
  · simp only [List.forall_mem_cons]
    exact ⟨exec_pc _ s, exec_pc _ s, nofun⟩
  · have htarget : targetPc (.beq a b imm) s = branchTarget s imm := if_pos h
    exact htarget ▸ exec_pc _ s
  · have htarget : targetPc (.bne a b imm) s = branchTarget s imm := if_neg h
    exact htarget ▸ exec_pc _ s

/-- Settles O15: the frame is the window of storage, byte by byte. -/
theorem phasesEndAtPcZero : Obligations.PhasesEndAtPcZero := by
  refine fun s hh => ⟨fun hs hp hphase => ?_, fun hs hp hphase => ?_, fun hs => step_between_iterations hh hs⟩
  · rw [step_at_pc_zero hh hs hp, endPhase_of_setup hphase]
  · rw [step_at_pc_zero hh hs hp, endPhase_of_loop hphase]
    exact ⟨_, _, rfl, rfl, renderEvent_length s, vramBase_add_size_le s, fun k hk => renderEvent_getElem? s (by rwa [vramSize_eq])⟩

end Sys2Proof.Proofs
end

section
/-! PROOFS. The family 41_control_transfer.md: the targets as numbers, and one law for the transfers that write no register, whose one
effect is the PC update (J, BEQ, BNE, JR: O31, O33, O34, O35); JAL, which also writes the link register (O32). -/

namespace Sys2Proof.Machine

open Sys2Proof.Safety

/-! ### The targets as numbers (R110 to R114) -/

theorem addrWidth_bits_ge (w : AddrWidth) : 16 ≤ w.bits := by cases w <;> decide

/-- An address is a number modulo 2^32, so its reduction to the address width is that of the number (10_state.md R16). -/
theorem narrow_toNat_of_mod {p : Addr} {n : Nat} (w : AddrWidth) (h : p.toNat = n % 2 ^ 32) :
    (narrow w p).toNat = n % 2 ^ w.bits := by
  rw [narrow_toNat, h]
  exact Nat.mod_mod_of_dvd n (Nat.pow_dvd_pow 2 (addrWidth_bits_le w))

/-- An immediate is unsigned and too small for its fourfold to carry out of an address. -/
theorem jumpTarget_toNat (imm : Imm) : (jumpTarget imm).toNat = imm.toNat * 4 := by
  have himm := imm.isLt
  simp only [jumpTarget, BitVec.toNat_mul, BitVec.toNat_setWidth, BitVec.toNat_ofNat]
  omega

theorem branchTarget_toNat (s : State) (imm : Imm) :
    (branchTarget s imm).toNat = (s.pc.toNat + s.config.brBase.offset + imm.toNat * 4) % 2 ^ 32 := by
  have hoffset : branchTarget s imm = s.pc + BitVec.ofNat 32 s.config.brBase.offset + jumpTarget imm := rfl
  rw [hoffset, BitVec.toNat_add, BitVec.toNat_add, jumpTarget_toNat, BitVec.toNat_ofNat]
  omega

/-- Taken or not, a branch goes on at one address. -/
theorem branch_toNat (taken : Prop) [Decidable taken] (s : State) (imm : Imm) :
    (if taken then branchTarget s imm else s.pc + 4#32).toNat =
      (if taken then s.pc.toNat + s.config.brBase.offset + imm.toNat * 4 else s.pc.toNat + 4) % 2 ^ 32 := by
  split_ifs
  · exact branchTarget_toNat s imm
  · exact BitVec.toNat_add ..

/-- A register's value is an address under every address width. -/
theorem narrow_registerTarget_toNat (w : AddrWidth) (s : State) (a : RegIdx) :
    (narrow w (registerTarget s a)).toNat = (s.reg a).toNat := by
  have hreg : (registerTarget s a).toNat = (s.reg a).toNat := BitVec.toNat_setWidth_of_le (by decide)
  rw [narrow_toNat, hreg]
  exact Nat.mod_eq_of_lt ((s.reg a).isLt.trans_le (Nat.pow_le_pow_right two_pos (addrWidth_bits_ge w)))

theorem linkValue_toNat (pc : Addr) : (linkValue pc).toNat = (pc.toNat + 4) % 2 ^ 16 := by
  rw [linkValue, BitVec.toNat_setWidth, BitVec.toNat_add]
  exact Nat.mod_mod_of_dvd _ (Nat.pow_dvd_pow 2 (by decide))

/-! ### What a transfer changes -/

/-- An instruction that makes no access ends in its register write and its PC update, which leave all else. -/
theorem ended_onlyRegsAndPc (s : State) (r : RegIdx) (v : Word) (p : Addr) : OnlyRegsAndPc s (ended s r v p false) :=
  ⟨fun _ => rfl, ended_sameEngine .., rfl, ⟨rfl, rfl, rfl⟩, ⟨rfl, rfl⟩, ⟨rfl, rfl⟩⟩

/-- The law of an instruction with neither an access, nor a destination, nor a halt request: its PC update alone. -/
theorem exec_of_only_target (i : Instr) (s : State) (hacc : accessed i s = s) (hdest : destination i = none)
    (hhalt : haltRequest i s = false) :
    ∃ t, exec i s = .next t ∧ t.pc = narrow s.config.addrWidth (targetPc i s) ∧ SameRegs s t ∧ OnlyRegsAndPc s t := by
  obtain ⟨v, he⟩ := exec_eq_ended i s
  rw [hacc, hdest, hhalt] at he
  refine ⟨_, he, ended_pc .., fun r => ?_, ended_onlyRegsAndPc ..⟩
  rw [ended_reg, Option.getD_none, State.setReg_zero]

end Sys2Proof.Machine

/-! ### The obligations -/

namespace Sys2Proof.Proofs

open Sys2Proof.Machine Sys2Proof.Safety

/-- Every instruction is selected by its own encoding: O1 in the form the instructions' obligations state it. -/
theorem selects_encodeWith (i : Instr) : Selects (fun m => encodeWith m i) i := fun m hm => decodeInvertsEncode m hm i

/-- Settles O31: J is its PC update, by the jump's target. -/
theorem jJumps : Obligations.JJumps := by
  intro a b imm s
  obtain ⟨t, ht, hpc, hregs, hrest⟩ := exec_of_only_target (.j a b imm) s rfl rfl rfl
  refine ⟨selects_encodeWith (.j a b imm), t, ht, ?_, hregs, hrest⟩
  rw [hpc, targetPc, narrow_toNat, jumpTarget_toNat]

/-- Settles O32: the link is written before the jump, from the old pc, and register 31 is not the hard-wired one. -/
theorem jalLinksAndJumps : Obligations.JalLinksAndJumps := by
  intro a b imm s
  have hexec : exec (.jal a b imm) s = .next (ended s linkReg (linkValue s.pc) (jumpTarget imm) false) := rfl
  refine ⟨selects_encodeWith (.jal a b imm), _, hexec, ?_, ?_, ended_sameRegsExcept (.jal a b imm) s _ _ _, ended_onlyRegsAndPc ..⟩
  · rw [ended_pc, narrow_toNat, jumpTarget_toNat]
  · have hlink : (s.setReg linkReg (linkValue s.pc)).reg linkReg = linkValue s.pc := s.reg_setReg_self linkReg _ (by decide)
    rw [ended_reg, ← linkReg, hlink, linkValue_toNat]

/-- Settles O33: the branch is its PC update, to the one or the other target. -/
theorem beqBranchesOnEqual : Obligations.BeqBranchesOnEqual := by
  intro a b imm s
  obtain ⟨t, ht, hpc, hregs, hrest⟩ := exec_of_only_target (.beq a b imm) s rfl rfl rfl
  refine ⟨selects_encodeWith (.beq a b imm), t, ht, hregs, hrest, ?_⟩
  rw [hpc]
  exact narrow_toNat_of_mod _ (branch_toNat (s.reg a = s.reg b) s imm)

/-- Settles O34: BNE is taken exactly where BEQ is not. -/
theorem bneBranchesOnDifferent : Obligations.BneBranchesOnDifferent := by
  intro a b imm s
  obtain ⟨t, ht, hpc, hregs, hrest⟩ := exec_of_only_target (.bne a b imm) s rfl rfl rfl
  refine ⟨selects_encodeWith (.bne a b imm), t, ht, hregs, hrest, ?_⟩
  have htarget : targetPc (.bne a b imm) s = if s.reg a ≠ s.reg b then branchTarget s imm else s.pc + 4#32 := (ite_not ..).symm
  rw [hpc, htarget]
  exact narrow_toNat_of_mod _ (branch_toNat (s.reg a ≠ s.reg b) s imm)

/-- Settles O35: JR is its PC update, and a register's value needs no reduction. -/
theorem jrJumpsToTheRegister : Obligations.JrJumpsToTheRegister := by
  intro a b c sh s
  obtain ⟨t, ht, hpc, hregs, hrest⟩ := exec_of_only_target (.jr a b c sh) s rfl rfl rfl
  refine ⟨selects_encodeWith (.jr a b c sh), t, ht, ?_, hregs, hrest⟩
  rw [hpc, targetPc, narrow_registerTarget_toNat]

end Sys2Proof.Proofs
end

section
/-! PROOFS. The family 42_alu_immediate.md: one law for the end of an instruction that writes a register and goes on at pc + 4, hence the
whole effect of ADDI and ORI but for the value they compute (O36, O37). -/

namespace Sys2Proof.Machine

open Sys2Proof.Safety

variable (s : State) (d : RegIdx) (v : Word)

/-! ### The end of an instruction that writes a register (10_state.md R11, R12; 40_engine_step.md R90, R95) -/

theorem written_writeBack : Written (s.writeBack d v) d v := by
  rw [Written, State.writeBack_reg, State.reg_setReg, if_pos rfl]

theorem sameRegsExcept_writeBack : SameRegsExcept [d] s (s.writeBack d v) := by
  intro r hr
  rw [State.writeBack_reg]
  exact s.reg_setReg_of_ne d r v (List.ne_of_not_mem_cons hr)

/-- The effect of a register write and the default PC rule, and the frame of both. -/
theorem writeBack_effect :
    Written (s.writeBack d v) d v ∧ Advanced s (s.writeBack d v) ∧ SameRegsExcept [d] s (s.writeBack d v) ∧
      OnlyRegsAndPc s (s.writeBack d v) :=
  ⟨written_writeBack s d v, advanced_of_pc (s.writeBack_pc d v), sameRegsExcept_writeBack s d v,
    ended_onlyRegsAndPc s d v (s.pc + 4#32)⟩

end Sys2Proof.Machine

/-! ### The obligations -/

namespace Sys2Proof.Proofs

open Sys2Proof.Machine Sys2Proof.Safety

/-- Settles O36: ADDI ends in the write of the sum of two words, which is the sum of their values modulo 2^16. -/
theorem addiAddsTheImmediate : Obligations.AddiAddsTheImmediate := by
  intro a b imm s
  have hexec : exec (.addi a b imm) s = .next (s.writeBack b (s.reg a + imm)) := rfl
  exact ⟨selects_encodeWith (.addi a b imm), _, _, hexec, BitVec.toNat_add .., writeBack_effect ..⟩

/-- Settles O37: ORI ends in the write of the bitwise OR, each bit of which is the OR of the two bits. -/
theorem oriOrsTheImmediate : Obligations.OriOrsTheImmediate := by
  intro a b imm s
  have hexec : exec (.ori a b imm) s = .next (s.writeBack b (s.reg a ||| imm)) := rfl
  exact ⟨selects_encodeWith (.ori a b imm), _, _, hexec, fun _ => BitVec.getLsbD_or, writeBack_effect ..⟩

end Sys2Proof.Proofs
end

section
/-! PROOFS. The family 43_load_store.md: the effective address as a number (O21); what every load and store leaves of the state, by its one
access and its end, hence the effect of LBU, LW, SB and SW by the effective address (O38 to O41); a load that reports nothing (O42). -/

namespace Sys2Proof.Machine

open Sys2Proof.Safety

variable {s t u : State}

/-! ### The effective address as a number (43_load_store.md R125) -/

/-- Two unsigned words are too small for their sum to carry out of an address. -/
theorem addressSum_toNat (s : State) (a : RegIdx) (imm : Imm) : (addressSum s a imm).toNat = (s.reg a).toNat + imm.toNat := by
  have hreg := (s.reg a).isLt
  have himm := imm.isLt
  simp only [addressSum, BitVec.toNat_add, BitVec.toNat_setWidth]
  omega

theorem effectiveAddress_toNat (s : State) (a : RegIdx) (imm : Imm) :
    (effectiveAddress s a imm).toNat = ((s.reg a).toNat + imm.toNat) % 2 ^ s.config.addrWidth.bits := by
  rw [effectiveAddress, narrow_toNat, addressSum_toNat]

/-! ### What each access leaves of the ports (20_memory.md R39, R41, R44 to R47) -/

theorem takeStdin_outputs (s : State) : SameOutputs s s.takeStdin.2 := by
  unfold State.takeStdin; split <;> exact ⟨rfl, rfl⟩

theorem readByte_outputs (a : Addr) (s : State) : SameOutputs s (readByte a s).2 := by
  unfold readByte
  cases region a
  case stdin => exact takeStdin_outputs s
  all_goals exact ⟨rfl, rfl⟩

theorem readWord_ports (a : Addr) (s : State) : SameInputs s (readWord a s).2 ∧ SameOutputs s (readWord a s).2 := by
  unfold readWord
  cases region a <;> exact ⟨⟨rfl, rfl, rfl⟩, rfl, rfl⟩

theorem writeByte_stdinPos (a : Addr) (v : Byte) (s : State) : (writeByte a v s).1.stdinPos = s.stdinPos := by
  unfold writeByte
  cases region a <;> rfl

theorem writeWord_ports (a : Addr) (v : Word) (s : State) : SameInputs s (writeWord a v s) ∧ SameOutputs s (writeWord a v s) := by
  unfold writeWord
  cases region a <;> exact ⟨⟨rfl, rfl, rfl⟩, rfl, rfl⟩

/-! ### What a load or store leaves, wherever its address lies (40_engine_step.md R90, R95, R97) -/

/-- What every instruction with an access leaves but for its destination `d`: it goes on at pc + 4, and neither the engine's control
state, nor what the host supplies, nor the frames change. -/
structure AccessFrame (d : RegIdx) (s t : State) : Prop where
  advanced : Advanced s t
  regs     : SameRegsExcept [d] s t
  engine   : SameEngine s t
  ctrl     : t.ctrl = s.ctrl
  stdin    : t.stdin = s.stdin
  frames   : t.frames = s.frames

/-- One access, then the end of an instruction at pc + 4. -/
theorem Access.ended_frame (h : Access s u) (d : RegIdx) (v : Word) (b : Bool) :
    AccessFrame d s (ended u d v (u.pc + 4#32) b) where
  advanced := advanced_of_pc (by rw [ended_pc, h.config, h.pc])
  regs r hr := by rw [ended_reg, u.reg_setReg_of_ne d r v (List.ne_of_not_mem_cons hr), h.reg]
  engine := sameEngine_trans h.sameEngine (ended_sameEngine ..)
  ctrl := (h.portBounds.ended d v (u.pc + 4#32) b).ctrl
  stdin := (h.portBounds.ended d v (u.pc + 4#32) b).stdin
  frames := (h.portBounds.ended d v (u.pc + 4#32) b).frames

theorem Access.writeBack_frame (h : Access s u) (d : RegIdx) (v : Word) : AccessFrame d s (u.writeBack d v) :=
  h.ended_frame d v false

/-- A store's destination is the hard-wired register, so it leaves them all (10_state.md R11). -/
theorem AccessFrame.sameRegs (h : AccessFrame 0#5 s t) : SameRegs s t := by
  intro r
  by_cases hr : r = 0#5
  · rw [hr, State.reg_zero, State.reg_zero]
  · exact h.regs r (mt List.mem_singleton.mp hr)

theorem ended_stdinPos (s : State) (r : RegIdx) (v : Word) (p : Addr) (h : Bool) : (ended s r v p h).stdinPos = s.stdinPos := by
  cases h <;> rfl

/-! ### Each form as its access and its end (43_load_store.md R126 to R129) -/

theorem exec_lbu (a b : RegIdx) (imm : Imm) (s : State) :
    exec (.lbu a b imm) s = .next ((readByte (effectiveAddress s a imm) s).2.writeBack b
      ((readByte (effectiveAddress s a imm) s).1.setWidth 16)) := rfl

theorem exec_lw (a b : RegIdx) (imm : Imm) (s : State) :
    exec (.lw a b imm) s = .next ((readWord (effectiveAddress s a imm) s).2.writeBack b
      (readWord (effectiveAddress s a imm) s).1) := rfl

theorem exec_sb (a b : RegIdx) (imm : Imm) (s : State) :
    let w := writeByte (effectiveAddress s a imm) ((s.reg b).extractLsb' 0 8) s
    exec (.sb a b imm) s = .next (ended w.1 0#5 0#16 (w.1.pc + 4#32) w.2) := by
  intro w
  rw [ended_zero]
  rfl

theorem exec_sw (a b : RegIdx) (imm : Imm) (s : State) :
    let w := writeWord (effectiveAddress s a imm) (s.reg b) s
    exec (.sw a b imm) s = .next (ended w 0#5 0#16 (w.pc + 4#32) false) := by
  intro w
  rw [ended_zero]
  rfl

/-! ### A load whose fetch and access are granted (43_load_store.md R131) -/

/-- Off the guards G2, G6 and G7 a phase that is being run fetches from the ROM. -/
theorem region_pc_of_off_guards (h : AtInstruction s) (habove : Guard.holds .pcAbove s = false)
    (hram : Guard.holds .fetchFromRam s = false) (hio : Guard.holds .fetchFromIoZone s = false) : region s.pc = .rom := by
  obtain ⟨-, -, hpc⟩ := h
  have hpos : s.pc.toNat ≠ 0 := fun h0 => hpc (BitVec.eq_of_toNat_eq h0)
  simp only [Guard.holds, inIoZone, Bool.and_eq_false_iff, decide_eq_false_iff_not] at habove hram hio
  rw [region_rom_iff]
  omega

/-- A granted fetch leaves the state, so the step is the instruction's. -/
theorem step_eq_exec_of_rom {i : Instr} (h : AtInstruction s) (hrom : region s.pc = .rom) (hi : nextInstr s = some i) :
    step s = exec i s := by
  have hfetch : afterFetch s = s := by rw [afterFetch, readInstruction_of_rom hrom]
  rcases step_nextInstr_cases h with ⟨j, hj, hs⟩ | ⟨hnone, -⟩
  · rw [hs, hfetch, Option.some.inj (hi.symm.trans hj)]
  · exact nomatch hi.symm.trans hnone

theorem granted_lbu_of_off_guard {a b : RegIdx} {imm : Imm} (hi : nextInstr s = some (.lbu a b imm))
    (h : Guard.holds .degradedLoad s = false) : granted (effectiveAddress s a imm) .read .byte = true := by
  simpa only [Guard.holds, ofNext, hi, Bool.not_eq_false'] using h

theorem granted_lw_of_off_guard {a b : RegIdx} {imm : Imm} (hi : nextInstr s = some (.lw a b imm))
    (h : Guard.holds .degradedLoad s = false) : granted (effectiveAddress s a imm) .read .word = true := by
  simpa only [Guard.holds, ofNext, hi, Bool.not_eq_false'] using h

end Sys2Proof.Machine

/-! ### The obligations -/

namespace Sys2Proof.Proofs

open Sys2Proof.Machine Sys2Proof.Safety

/-- Settles O38: the byte read by address (O22) goes to `reg_b`; what a read leaves does not depend on the address. -/
theorem lbuLoadsAByte : Obligations.LbuLoadsAByte := by
  intro a b imm s
  have hread := byteReadByAddress.1 (effectiveAddress s a imm) s
  have hacc := readByte_access (effectiveAddress s a imm) s
  have hf := hacc.writeBack_frame b ((readByte (effectiveAddress s a imm) s).1.setWidth 16)
  refine ⟨selects_encodeWith (.lbu a b imm), _, exec_lbu a b imm s, hf.advanced, hf.regs, fun x => ?_, hf.engine, hacc.halted,
    readByte_outputs .., hf.frames, hf.ctrl, hf.stdin, ?_⟩
  · rw [State.writeBack_mem, readByte_mem]
  · split_ifs at hread ⊢ with hstorage hctrl hstdin
    pick_goal 3
    · obtain ⟨hsome, hnone⟩ := hread
      refine ⟨fun x hx => ?_, fun hx => ?_, ?_⟩
      · rw [hsome x hx]
        exact ⟨written_writeBack .., rfl⟩
      · obtain ⟨hexhausted, -⟩ := hnone hx
        rw [hexhausted]
        exact ⟨written_writeBack .., rfl⟩
      · rw [readByte_of_stdin (region_stdin_iff.mpr hstdin)]
        exact takeStdin_diaglog s
    all_goals
      rw [hread]
      exact ⟨written_writeBack .., rfl, rfl⟩

/-- Settles O39: a word read is granted on storage alone. -/
theorem lwLoadsAWord : Obligations.LwLoadsAWord := by
  intro a b imm s
  have hacc := readWord_access (effectiveAddress s a imm) s
  have hf := hacc.writeBack_frame b (readWord (effectiveAddress s a imm) s).1
  obtain ⟨hin, hout⟩ := readWord_ports (effectiveAddress s a imm) s
  refine ⟨selects_encodeWith (.lw a b imm), _, exec_lw a b imm s, hf.advanced, hf.regs, fun x => ?_, hf.engine, hacc.halted,
    hin, hout, hf.frames, ?_⟩
  · rw [State.writeBack_mem, readWord_mem]
  · split_ifs with h <;> rw [← storage_iff] at h
    · rw [readWord_of_storage h]
      exact ⟨written_writeBack .., rfl⟩
    · rw [readWord_of_refused (mt granted_read_word_iff.mp h)]
      exact ⟨written_writeBack .., rfl⟩

/-- Settles O40: the low byte is written by address (O23), and in RAM reads back. -/
theorem sbStoresTheLowByte : Obligations.SbStoresTheLowByte := by
  intro a b imm s hwf
  have hwrite := byteWriteByAddress (effectiveAddress s a imm) ((s.reg b).extractLsb' 0 8) s
  have hacc := writeByte_access (effectiveAddress s a imm) ((s.reg b).extractLsb' 0 8) s
  have hf := hacc.ended_frame 0#5 0#16 (writeByte (effectiveAddress s a imm) ((s.reg b).extractLsb' 0 8) s).2
  refine ⟨selects_encodeWith (.sb a b imm), _, exec_sb a b imm s, hf.advanced, hf.sameRegs, hf.engine,
    ⟨hf.ctrl, hf.stdin, (ended_stdinPos ..).trans (writeByte_stdinPos ..)⟩, hf.frames, ?_⟩
  split_ifs at hwrite ⊢ with hram hout herr hstop <;> rw [hwrite]
  · exact ⟨(congrArg _ (Memory.read_write_self hwf)).trans (lowByte_toNat _),
      fun x hx => Memory.read_write_of_ne (List.ne_of_not_mem_cons hx), rfl, ⟨rfl, rfl⟩, rfl⟩
  · exact ⟨rfl, rfl, fun _ => rfl, rfl, rfl⟩
  · exact ⟨rfl, rfl, fun _ => rfl, rfl, rfl⟩
  · exact ⟨rfl, fun _ => rfl, ⟨rfl, rfl⟩, rfl⟩
  · exact ⟨fun _ => rfl, rfl, ⟨rfl, rfl⟩, rfl⟩

/-- Settles O41: the unit is written by address (O25). -/
theorem swStoresTheRegister : Obligations.SwStoresTheRegister := by
  intro a b imm s hwf
  have hwrite := wordWriteByAddress (effectiveAddress s a imm) (s.reg b) s hwf
  have hacc := writeWord_access (effectiveAddress s a imm) (s.reg b) s
  have hf := hacc.ended_frame 0#5 0#16 false
  obtain ⟨hin, hout⟩ := writeWord_ports (effectiveAddress s a imm) (s.reg b) s
  refine ⟨selects_encodeWith (.sw a b imm), _, exec_sw a b imm s, hf.advanced, hf.sameRegs, hf.engine, hacc.halted, hin, hout,
    hf.frames, ?_⟩
  split_ifs at hwrite ⊢ with hram
  · obtain ⟨m, hw, -, hhigh, hlow, hother⟩ := hwrite
    rw [hw]
    exact ⟨hhigh, hlow,
      fun x hx => hother x (List.ne_of_not_mem_cons hx) (List.ne_of_not_mem_cons (List.not_mem_of_not_mem_cons hx)), rfl⟩
  · rw [hwrite]
    exact ⟨fun _ => rfl, rfl⟩

/-- Settles O42: off the guards both the fetch and the load's access are granted, and a granted access reports nothing. -/
theorem loadsOffTheirGuardReportNothing : Obligations.LoadsOffTheirGuardReportNothing := by
  intro s a b imm h habove hram hio hload hi
  have hrom := region_pc_of_off_guards h habove hram hio
  rcases hi with hi | hi
  · exact ⟨_, step_eq_exec_of_rom h hrom hi, readByte_diaglog_of_granted (granted_lbu_of_off_guard hi hload)⟩
  · exact ⟨_, step_eq_exec_of_rom h hrom hi, readWord_diaglog_of_granted (granted_lw_of_off_guard hi hload)⟩

/-- Settles O21: under `AW` = 32 the sum of two words is below the modulus. -/
theorem effectiveAddressKeepsItsCarry : Obligations.EffectiveAddressKeepsItsCarry := by
  intro s a imm
  refine ⟨effectiveAddress_toNat s a imm, fun hw => ?_⟩
  have hreg := (s.reg a).isLt
  have himm := imm.isLt
  rw [effectiveAddress_toNat, hw, AddrWidth.bits]
  omega

end Sys2Proof.Proofs
end

section
/-! PROOFS. The family 44_alu_register.md: the values that the library does not give in the words of R135, R137 and R140, and the effect of
ADD, SUB, AND, OR, NOR and SLT, each a register write and the default PC rule (O43 to O48). -/

namespace Sys2Proof.Machine

open Sys2Proof.Safety

variable (x y : Word)

/-! ### The values of SUB, NOR and SLT (44_alu_register.md R137, R135, R140) -/

/-- The word of a difference is the integer difference modulo 2^16, so a negative one wraps. -/
theorem sub_toNat : ((x - y).toNat : Int) = ((x.toNat : Int) - y.toNat) % 2 ^ 16 := by
  rw [BitVec.toNat_sub]
  omega

theorem getLsbD_nor {k : Nat} (hk : k < 16) : (~~~(x ||| y)).getLsbD k = !(x.getLsbD k || y.getLsbD k) := by
  rw [BitVec.getLsbD_not, BitVec.getLsbD_or, decide_eq_true hk, Bool.true_and]

theorem signedLess_eq_zero_or_one : signedLess x y = 0#16 ∨ signedLess x y = 1#16 := (ite_eq_or_eq ..).symm

theorem signedLess_eq_one_iff : signedLess x y = 1#16 ↔ x.toInt < y.toInt := by
  rw [signedLess, ite_eq_left_iff, not_imp_comm]
  exact imp_iff_right (by decide)

/-! ### What the six instructions leave (R90, R95) -/

/-- Whatever the operation, its value on the two registers is written to `reg_c`, and nothing else but pc changes. -/
theorem aluRegister_effect (f : Word → Word → Word) (a b c : RegIdx) (s : State) :
    Written (aluRegister f a b c s) c (f (s.reg a) (s.reg b)) ∧ Advanced s (aluRegister f a b c s) ∧
      SameRegsExcept [c] s (aluRegister f a b c s) ∧ OnlyRegsAndPc s (aluRegister f a b c s) :=
  writeBack_effect ..

end Sys2Proof.Machine

/-! ### The obligations -/

namespace Sys2Proof.Proofs

open Sys2Proof.Machine Sys2Proof.Safety

/-- Settles O43: the sum of two words is the sum of their values modulo 2^16. -/
theorem addWritesTheSum : Obligations.AddWritesTheSum := fun a b c sh s =>
  ⟨selects_encodeWith (.add a b c sh), _, s.reg a + s.reg b, rfl, BitVec.toNat_add .., aluRegister_effect ..⟩

/-- Settles O44: the minuend is `reg_a`, and a negative difference wraps. -/
theorem subWritesTheDifference : Obligations.SubWritesTheDifference := fun a b c sh s =>
  ⟨selects_encodeWith (.sub a b c sh), _, s.reg a - s.reg b, rfl, sub_toNat .., aluRegister_effect ..⟩

/-- Settles O45: each bit of the value is the AND of the two bits. -/
theorem andWritesTheConjunction : Obligations.AndWritesTheConjunction := fun a b c sh s =>
  ⟨selects_encodeWith (.and a b c sh), _, s.reg a &&& s.reg b, rfl, fun _ => BitVec.getLsbD_and, aluRegister_effect ..⟩

/-- Settles O46: each bit of the value is the OR of the two bits. -/
theorem orWritesTheDisjunction : Obligations.OrWritesTheDisjunction := fun a b c sh s =>
  ⟨selects_encodeWith (.or a b c sh), _, s.reg a ||| s.reg b, rfl, fun _ => BitVec.getLsbD_or, aluRegister_effect ..⟩

/-- Settles O47: the complement is of the 16 bits of the word. -/
theorem norWritesTheComplementOfOr : Obligations.NorWritesTheComplementOfOr := fun a b c sh s =>
  ⟨selects_encodeWith (.nor a b c sh), _, ~~~(s.reg a ||| s.reg b), rfl, fun _ hk => getLsbD_nor _ _ hk, aluRegister_effect ..⟩

/-- Settles O48: the value is 1 exactly where the signed readings are in order, and has only the two values. -/
theorem sltWritesTheSignedComparison : Obligations.SltWritesTheSignedComparison := fun a b c sh s =>
  ⟨selects_encodeWith (.slt a b c sh), _, signedLess (s.reg a) (s.reg b), rfl, signedLess_eq_zero_or_one .., signedLess_eq_one_iff ..,
    aluRegister_effect ..⟩

end Sys2Proof.Proofs
end

section
/-! PROOFS. The family 45_shift.md: the shifts, defined by arithmetic, as the library's shifts of bit vectors, hence their values (O49 to
O51) and their bits (O52) for any count; the effect of SLL, SRL and SRA, each a register write and the default PC rule. -/

namespace Sys2Proof.Machine

open Sys2Proof.Safety

variable (v : Word) (n : Nat)

/-! ### The shifts as shifts of bit vectors (45_shift.md R145 to R147) -/

theorem shiftLeft_eq_shiftLeft : shiftLeft v n = v <<< n := by
  apply BitVec.eq_of_toNat_eq
  rw [shiftLeft, BitVec.toNat_ofNat, BitVec.toNat_shiftLeft, Nat.shiftLeft_eq]

theorem shiftRight_eq_ushiftRight : shiftRight v n = v >>> n := by
  rw [shiftRight, ← Nat.shiftRight_eq_div_pow, ← BitVec.toNat_ushiftRight, BitVec.ofNat_toNat, BitVec.setWidth_eq]

theorem shiftRightSigned_eq_sshiftRight : shiftRightSigned v n = v.sshiftRight n := by
  rw [shiftRightSigned, BitVec.sshiftRight, Int.shiftRight_eq_div_pow, Nat.cast_pow, Nat.cast_ofNat]

/-! ### Their values (R145 to R147) -/

theorem shiftLeft_toNat : (shiftLeft v n).toNat = (v.toNat * 2 ^ n) % 2 ^ 16 := BitVec.toNat_ofNat ..

/-- A quotient of a word is a word, so nothing is lost. -/
theorem shiftRight_toNat : (shiftRight v n).toNat = v.toNat / 2 ^ n := by
  rw [shiftRight_eq_ushiftRight, BitVec.toNat_ushiftRight, Nat.shiftRight_eq_div_pow]

/-- A floor quotient of a signed word is a signed word; with a positive divisor, floor division is the division of the model. -/
theorem shiftRightSigned_toInt : (shiftRightSigned v n).toInt = v.toInt.fdiv (2 ^ n) := by
  rw [shiftRightSigned_eq_sshiftRight, BitVec.toInt_sshiftRight, Int.shiftRight_eq_div_pow, Nat.cast_pow, Nat.cast_ofNat,
    Int.fdiv_eq_ediv_of_nonneg _ (by positivity)]

/-! ### Their bits (R148) -/

variable {k : Nat}

theorem getLsbD_shiftLeft (hk : k < 16) : (shiftLeft v n).getLsbD k = if k < n then false else v.getLsbD (k - n) := by
  rw [shiftLeft_eq_shiftLeft, BitVec.getLsbD_shiftLeft, decide_eq_true hk, Bool.true_and]
  split_ifs with h <;> simp [h]

/-- The bits at and above 16, which a word has not, read as zeros. -/
theorem getLsbD_shiftRight : (shiftRight v n).getLsbD k = if k + n < 16 then v.getLsbD (k + n) else false := by
  rw [shiftRight_eq_ushiftRight, BitVec.getLsbD_ushiftRight, Nat.add_comm]
  split_ifs with h
  · rfl
  · exact BitVec.getLsbD_of_ge _ _ (not_lt.mp h)

theorem getLsbD_shiftRightSigned (hk : k < 16) :
    (shiftRightSigned v n).getLsbD k = if k + n < 16 then v.getLsbD (k + n) else v.getLsbD 15 := by
  rw [shiftRightSigned_eq_sshiftRight, BitVec.getLsbD_sshiftRight, decide_eq_false (not_le.mpr hk), Bool.not_false, Bool.true_and,
    Nat.add_comm, BitVec.msb_eq_getLsbD_last]

/-! ### What the three instructions leave (R90, R95) -/

/-- Whatever the shift, its value on `reg_b` and the count is written to `reg_c`, and nothing else but pc changes. -/
theorem shiftOp_effect (f : Word → Nat → Word) (b c : RegIdx) (sh : Shamt) (s : State) :
    Written (shiftOp f b c sh s) c (f (s.reg b) sh.toNat) ∧ Advanced s (shiftOp f b c sh s) ∧
      SameRegsExcept [c] s (shiftOp f b c sh s) ∧ OnlyRegsAndPc s (shiftOp f b c sh s) :=
  writeBack_effect ..

end Sys2Proof.Machine

/-! ### The obligations -/

namespace Sys2Proof.Proofs

open Sys2Proof.Machine Sys2Proof.Safety

/-- Settles O49: SLL writes the left shift of `reg_b`, a multiplication modulo 2^16. -/
theorem sllMultiplies : Obligations.SllMultiplies := fun a b c sh s =>
  ⟨selects_encodeWith (.sll a b c sh), _, shiftLeft (s.reg b) sh.toNat, rfl, shiftLeft_toNat .., shiftOp_effect ..⟩

/-- Settles O50: SRL writes the right shift of `reg_b`, an exact quotient. -/
theorem srlDivides : Obligations.SrlDivides := fun a b c sh s =>
  ⟨selects_encodeWith (.srl a b c sh), _, shiftRight (s.reg b) sh.toNat, rfl, shiftRight_toNat .., shiftOp_effect ..⟩

/-- Settles O51: SRA writes the signed right shift of `reg_b`, whose signed reading is the floor quotient. -/
theorem sraDividesSigned : Obligations.SraDividesSigned := fun a b c sh s =>
  ⟨selects_encodeWith (.sra a b c sh), _, shiftRightSigned (s.reg b) sh.toNat, rfl, shiftRightSigned_toInt .., shiftOp_effect ..⟩

/-- Settles O52: no count needs a case of its own, so the bound on it is not used. -/
theorem shiftsBitByBit : Obligations.ShiftsBitByBit := fun v n _ _ hk =>
  ⟨getLsbD_shiftLeft v n hk, getLsbD_shiftRight v n, getLsbD_shiftRightSigned v n hk⟩

end Sys2Proof.Proofs
end

section
/-! PROOFS. The family 70_reset_and_hazards.md: the invariant is kept by each action of the host, hence by every history (O20); the
storage a mount leaves (O54, O55); the layout of a snapshot, and the state a restore leaves (O58 to O60); the refusals, and the
start (O56, O57). -/

namespace Sys2Proof.Machine

open Sys2Proof.Safety

variable {rom blob bytes : List Byte} {s t : State} {m : Memory}

/-! ### What is refused (R170, R171, R176, R186) -/

theorem mountRom_of_length_ne (h : rom.length ≠ 32768) : mountRom rom s = .refused .romImageSize := if_pos h

theorem mountRom_of_not_fits (hl : rom.length = 32768) (hf : relocationFits rom = false) :
    mountRom rom s = .refused .relocationOutOfBounds :=
  (if_neg (not_not.mpr hl)).trans (if_pos (by rw [hf]; rfl))

theorem start_of_mounted (h : s.stage = .mounted) : start s = .next { s.setPc s.setupEntry with stage := .running } := by
  simp [start, h]

theorem start_of_not_mounted (h : s.stage ≠ .mounted) : start s = .refused .startOutOfOrder := by
  unfold start
  cases hs : s.stage with
  | mounted => exact absurd hs h
  | constructed | running | betweenIterations => rfl

theorem restore_of_length_ne (h : blob.length ≠ 65604) : restore blob s = .refused .snapshotGeometry := if_pos h

/-- Before the start a step executes nothing (R170). -/
theorem step_of_not_started (h : s.stage = .constructed ∨ s.stage = .mounted) : step s = .next s := by
  unfold step engineStep
  rcases h with h | h <;> simp [h]

/-! ### The storage a mount leaves (R173, R175, R177) -/

theorem getElem?_eq_some_getD {i : Nat} (h : i < bytes.length) : bytes[i]? = some (bytes.getD i 0#8) := by
  rw [List.getElem?_eq_getElem h, List.getD_eq_getElem]

/-- No byte of the ROM is relocated over, because the block lies in RAM. -/
theorem read_mountMemory_image (hl : rom.length = 32768) (hf : relocationFits rom = true) {i : Nat} (hi : i < 32768) :
    rom[i]? = some ((mountMemory rom m).read (0x8000 + i)) := by
  have hdest := (relocationFits_iff.mp hf).2
  rw [read_mountMemory hl hf, if_neg (by omega), if_pos (by omega), Nat.add_sub_cancel_left, getElem?_eq_some_getD (by omega)]

theorem read_mountMemory_block (hl : rom.length = 32768) (hf : relocationFits rom = true) {i : Nat}
    (hi : i < (be32At rom 0x1F0).toNat) :
    rom[(be32At rom 0x1E8).toNat + i]? = some ((mountMemory rom m).read ((be32At rom 0x1EC).toNat + i)) := by
  have hsource := (relocationFits_iff.mp hf).1
  rw [read_mountMemory hl hf, if_pos (by omega), Nat.add_sub_cancel_left, getElem?_eq_some_getD (by omega)]

/-- The addresses a mount overwrites: the ROM bytes and the relocated bytes (R177). -/
def MountOverwrites (rom : List Byte) (x : Nat) : Prop :=
  (0x8000 ≤ x ∧ x ≤ 0xFFFF) ∨ ((be32At rom 0x1EC).toNat ≤ x ∧ x < (be32At rom 0x1EC).toNat + (be32At rom 0x1F0).toNat)

theorem read_mountMemory_of_not_overwritten (hl : rom.length = 32768) (hf : relocationFits rom = true) {x : Nat}
    (hx : ¬MountOverwrites rom x) : (mountMemory rom m).read x = m.read x := by
  unfold MountOverwrites at hx
  rw [read_mountMemory hl hf, if_neg (by omega), if_neg (by omega)]

/-- What a mount overwrites does not depend on what was there, so a second mount of the image finds its own bytes (R177). -/
theorem mountMemory_mountMemory (hl : rom.length = 32768) (hf : relocationFits rom = true) (hm : m.wf = true) :
    mountMemory rom (mountMemory rom m) = mountMemory rom m := by
  have h1 := wf_mountMemory hl hf hm
  refine Memory.eq_of_read_eq (wf_mountMemory hl hf h1) h1 fun x => ?_
  simp only [read_mountMemory hl hf]
  split_ifs <;> rfl

/-! ### The bytes of a blob (R185, R49) -/

/-- The word of the two bytes at an offset of a block, most significant first. -/
def be16At (bytes : List Byte) (o : Nat) : Word := byteAt bytes o ++ byteAt bytes (o + 1)

/-- Words laid out one after the other read back in their order. -/
theorem be16At_flatMap_bytesOfHalf (ws : List Word) (i : Nat) : be16At (ws.flatMap bytesOfHalf) (2 * i) = ws.getD i 0#16 := by
  induction ws generalizing i with
  | nil => simp [be16At, byteAt]
  | cons w ws ih =>
    cases i with
    | zero => exact BitVec.extractLsb'_append_extractLsb'
    | succ i => exact ih i

theorem be16At_registerBytes (s : State) (r : RegIdx) : be16At (registerBytes s) (2 * r.toNat) = s.reg r := by
  have h := be16At_flatMap_bytesOfHalf ((List.range 32).map fun i => s.reg (BitVec.ofNat 5 i)) r.toNat
  rw [List.flatMap_map] at h
  refine h.trans ?_
  rw [List.getD_eq_getElem _ _ (by simpa using r.isLt)]
  simp

theorem byteAt_append_right {xs ys : List Byte} {n : Nat} (h : xs.length = n) (i : Nat) : byteAt (xs ++ ys) (n + i) = byteAt ys i := by
  subst h
  rw [byteAt, List.getD_append_right _ _ _ _ (Nat.le_add_right ..), Nat.add_sub_cancel_left, byteAt]

theorem byteAt_drop (n i : Nat) : byteAt (bytes.drop n) i = byteAt bytes (n + i) := by
  simp only [byteAt, List.getD_eq_getElem?_getD, List.getElem?_drop]

theorem byteAt_window {base size i : Nat} (h : i < size) : byteAt (m.window base size) i = m.read (base + i) := by
  rw [byteAt, List.getD_eq_getElem _ _ (by simpa using h)]
  simp [Memory.window]

theorem read_ofBytes_zero (a : Nat) : (Memory.ofBytes 0 bytes).read a = byteAt bytes a := by
  rw [Memory.read_ofBytes]
  split_ifs with h
  · rfl
  · exact (List.getD_eq_default _ _ (by omega)).symm

/-! ### The three parts of a snapshot (R185) -/

theorem registerBytes_length (s : State) : (registerBytes s).length = 64 := by
  simp [registerBytes, bytesOfHalf, List.length_flatMap]

theorem be32At_snapshot (s : State) : be32At (snapshot s) 0 = s.pc := wordOfBytes_bytesOfWord s.pc

theorem byteAt_snapshot_register (s : State) {k : Nat} (hk : k < 64) : byteAt (snapshot s) (4 + k) = byteAt (registerBytes s) k := by
  rw [snapshot, List.append_assoc, byteAt_append_right (bytesOfWord_length s.pc)]
  exact List.getD_append _ _ _ _ (by rwa [registerBytes_length])

theorem register_of_snapshot (s : State) (r : RegIdx) :
    byteAt (snapshot s) (4 + 2 * r.toNat) ++ byteAt (snapshot s) (5 + 2 * r.toNat) = s.reg r := by
  have hr := r.isLt
  rw [show 5 + 2 * r.toNat = 4 + (2 * r.toNat + 1) by omega, byteAt_snapshot_register s (by omega),
    byteAt_snapshot_register s (by omega)]
  exact be16At_registerBytes s r

theorem byteAt_snapshot_storage (s : State) {a : Nat} (ha : a < 65536) : byteAt (snapshot s) (68 + a) = s.mem.read a := by
  have hlen : (bytesOfWord s.pc ++ registerBytes s).length = 68 := by
    rw [List.length_append, bytesOfWord_length, registerBytes_length]
  rw [snapshot, byteAt_append_right hlen, byteAt_window (size := memSize) ha, Nat.zero_add]

/-! ### The state a restore leaves (R186) -/

/-- The state that a restore of a whole blob answers. -/
def restored (blob : List Byte) (s : State) : State :=
  { s.setPc (be32At blob 0) with
    regs := Vector.ofFn fun i => blobRegister blob i.val
    mem := Memory.ofBytes 0 (blob.drop 68) }

theorem restore_eq_restored (h : blob.length = 65604) : restore blob s = .next (restored blob s) := restore_of_length h

theorem restored_pc : (restored blob s).pc = narrow s.config.addrWidth (be32At blob 0) := rfl

theorem restored_zeroCell : (restored blob s).regs[0] = 0#16 := by simp [restored, blobRegister]

theorem restored_reg {r : RegIdx} (h : r ≠ 0#5) :
    (restored blob s).reg r = byteAt blob (4 + 2 * r.toNat) ++ byteAt blob (5 + 2 * r.toNat) := by
  have hr : r.toNat ≠ 0 := fun e => h (BitVec.eq_of_toNat_eq e)
  rw [State.reg, if_neg h, restored, Vector.getElem_ofFn, blobRegister, if_neg hr]

theorem restored_read (a : Nat) : (restored blob s).mem.read a = byteAt blob (68 + a) :=
  (read_ofBytes_zero a).trans (byteAt_drop ..)

theorem restored_wf (h : blob.length = 65604) : (restored blob s).mem.wf = true :=
  Memory.wf_ofBytes (by rw [List.length_drop, h]; decide)

/-- A restore leaves all but pc, registers and storage (R186; log entry 13 for the stage). -/
theorem restored_frame (blob : List Byte) (s : State) :
    SameEngine s (restored blob s) ∧ (restored blob s).halted = s.halted ∧ SameInputs s (restored blob s) ∧
      SameOutputs s (restored blob s) ∧ SameLogs s (restored blob s) := by
  unfold restored
  exact ⟨⟨rfl, rfl, rfl, rfl, rfl⟩, rfl, ⟨rfl, rfl, rfl⟩, ⟨rfl, rfl⟩, rfl, rfl⟩

/-- Register 0 reads 0 on both sides. -/
theorem restored_snapshot_sameRegs (s f : State) : SameRegs s (restored (snapshot s) f) := fun r => by
  by_cases hr : r = 0#5
  · rw [hr, State.reg_zero, State.reg_zero]
  · rw [restored_reg hr, register_of_snapshot]

/-! ### The stage after a mount (R170) -/

theorem Stage.afterMount_between {g : Stage} : g.afterMount = .betweenIterations ↔ g = .betweenIterations := by
  cases g <;> decide

/-- A mount moves a session before its start only within the stages before the start. -/
theorem Stage.afterMount_unstarted {g : Stage} :
    g.afterMount = .constructed ∨ g.afterMount = .mounted ↔ g = .constructed ∨ g = .mounted := by
  cases g <;> decide

/-! ### Histories (R188) -/

variable {e : Event} {es : List Event}

/-- No event changes the parameters (log entry 31). -/
theorem happen_config (h : happen e s = .next t) : t.config = s.config := by
  cases e with
  | step => exact step_config h
  | mountRom rom => obtain ⟨-, -, rfl⟩ := mountRom_next h; rfl
  | start => obtain ⟨-, rfl⟩ := start_next h; rfl
  | driveCtrl v => cases h; rfl
  | supplyStdin bytes => cases h; rfl
  | requestHalt => cases h; rfl
  | restore blob => obtain ⟨-, rfl⟩ := restore_next h; rfl

theorem history_cons_next (h : history (e :: es) s = .next t) : ∃ u, happen e s = .next u ∧ history es u = .next t := by
  rw [history] at h
  split at h
  · exact ⟨_, ‹_›, h⟩
  · nomatch h
  · nomatch h

/-- What every event keeps, every history keeps. -/
theorem history_induction {P : State → Prop} (hP : ∀ e s t, P s → happen e s = .next t → P t) (hs : P s)
    (h : history es s = .next t) : P t := by
  induction es generalizing s with
  | nil => cases h; exact hs
  | cons e es ih =>
    obtain ⟨u, hu, ht⟩ := history_cons_next h
    exact ih (hP e s u hs hu) ht

end Sys2Proof.Machine

/-! ### The invariant under each event -/

namespace Sys2Proof.Safety.Inv

open Sys2Proof.Machine

variable {s t : State}

/-- The stage constrains the phase after a mount exactly as before it. -/
theorem mountRom {rom : List Byte} (hs : Inv s) (h : mountRom rom s = .next t) : Inv t := by
  obtain ⟨hl, hf, rfl⟩ := mountRom_next h
  exact { hs with
    memCanonical := wf_mountMemory hl hf hs.memCanonical
    betweenIsLoop := hs.betweenIsLoop ∘ Stage.afterMount_between.mp
    unstartedIsSetup := hs.unstartedIsSetup ∘ Stage.afterMount_unstarted.mp }

/-- The start leaves the stages that constrain the phase. -/
theorem start (hs : Inv s) (h : start s = .next t) : Inv t := by
  obtain ⟨-, rfl⟩ := start_next h
  exact { hs.setPc s.setupEntry with betweenIsLoop := nofun, unstartedIsSetup := nofun }

theorem restored {blob : List Byte} (hs : Inv s) (h : blob.length = 65604) : Inv (restored blob s) :=
  { hs.setPc (be32At blob 0) with memCanonical := restored_wf (s := s) h, zeroCell := restored_zeroCell (s := s) }

theorem supplyStdin (hs : Inv s) (bytes : List Byte) : Inv { s with stdin := s.stdin ++ bytes } :=
  { hs with readPosition := by simpa using Nat.le_add_right_of_le hs.readPosition }

theorem happen {e : Event} (hs : Inv s) (h : happen e s = .next t) : Inv t := by
  cases e with
  | step => exact hs.step h
  | mountRom rom => exact hs.mountRom h
  | start => exact hs.start h
  | driveCtrl v => cases h; exact { hs with }
  | supplyStdin bytes => cases h; exact hs.supplyStdin bytes
  | requestHalt => cases h; exact hs.halt
  | restore blob => obtain ⟨hl, rfl⟩ := restore_next h; exact hs.restored hl

end Sys2Proof.Safety.Inv

/-! ### The obligations -/

namespace Sys2Proof.Proofs

open Sys2Proof.Machine Sys2Proof.Safety

/-- Settles O20, by induction over the history: each event keeps the invariant and the parameters. -/
theorem historyKeepsTheInvariant : Obligations.HistoryKeepsTheInvariant := fun _ s _ hs h =>
  history_induction (P := fun u => Inv u ∧ u.config = s.config)
    (fun _ _ _ ⟨hu, hc⟩ hv => ⟨hu.happen hv, (happen_config hv).trans hc⟩) ⟨hs, rfl⟩ h

/-- Settles O54: the block lies in RAM and so never over the image. -/
theorem mountPlacesTheImage : Obligations.MountPlacesTheImage := fun _ _ hl hf =>
  ⟨_, mountRom_of_fits hl hf, fun _ hi => read_mountMemory_image hl hf hi, fun _ hi => read_mountMemory_block hl hf hi,
    fun _ hx hblock => read_mountMemory_of_not_overwritten hl hf (not_or.mpr ⟨fun hrom => absurd hrom.1 (not_le.mpr hx), hblock⟩),
    rfl, rfl, rfl, fun _ => rfl, rfl, rfl, rfl, ⟨rfl, rfl, rfl⟩, ⟨rfl, rfl⟩, rfl, rfl⟩

/-- Settles O55: the bounds are of the image alone, so the second mount is not refused, and the canonical storages it and the first
leave read the same. -/
theorem mountIsIdempotent : Obligations.MountIsIdempotent := by
  intro rom s t hm h
  obtain ⟨hl, hf, rfl⟩ := mountRom_next h
  exact ⟨⟨_, mountRom_of_fits hl hf, mountMemory_mountMemory hl hf hm⟩, fun _ hi => read_mountMemory_image hl hf hi,
    fun _ hi => read_mountMemory_block hl hf hi, fun _ => not_imp_comm.mp (read_mountMemory_of_not_overwritten hl hf),
    rfl, fun _ => rfl, rfl⟩

/-- Settles O56: the length is checked first, then the two bounds of R176. -/
theorem badImagesAreRefused : Obligations.BadImagesAreRefused := by
  refine fun rom s => ⟨mountRom_of_length_ne, fun hl hbounds => mountRom_of_not_fits hl (Bool.eq_false_iff.mpr fun hf => ?_)⟩
  obtain ⟨hsource, hdest⟩ := relocationFits_iff.mp hf
  omega

/-- Settles O57: before the start a step is a stutter, and only the mounted stage allows the start. -/
theorem startEntersSetup : Obligations.StartEntersSetup := fun _ =>
  ⟨step_of_not_started, start_of_mounted, start_of_not_mounted⟩

/-- Settles O58: the length, then the three parts of the blob one by one. -/
theorem snapshotLayout : Obligations.SnapshotLayout := fun s =>
  ⟨snapshot_length s, be32At_snapshot s, register_of_snapshot s, fun _ ha => byteAt_snapshot_storage s ha⟩

/-- Settles O59: each part of the blob is read back from where the snapshot laid it out. -/
theorem restoreOfSnapshotReproduces : Obligations.RestoreOfSnapshotReproduces := fun s f =>
  ⟨restored (snapshot s) f, restore_eq_restored (snapshot_length s),
    fun hpc => by rw [restored_pc, be32At_snapshot, narrow_of_lt hpc], restored_snapshot_sameRegs s f,
    fun a ha => (restored_read a).trans (byteAt_snapshot_storage s ha), restored_frame (snapshot s) f⟩

/-- Settles O60: the length is the only check, and what follows holds of the restored state by its parts. -/
theorem restoreTakesWholeBlobsOnly : Obligations.RestoreTakesWholeBlobsOnly := fun blob s =>
  ⟨restore_of_length_ne, fun hl => ⟨restored blob s, restore_eq_restored hl, restored_pc, restored_wf hl, restored_zeroCell,
    fun _ hr => restored_reg hr, fun a _ => restored_read a⟩⟩

end Sys2Proof.Proofs
end
